-- ==== Sys2Proof/Word.lean ====
section
/-! DEFINITION. The widths the spec's values come in (00_scope.md R9, R10; 20_memory.md R34). -/

namespace Sys2Proof

/-- A byte: an 8-bit unsigned value (R10). -/
abbrev Byte := BitVec 8

/-- One of the three big-endian 16-bit words of a header (R34). -/
abbrev Word16 := BitVec 16

/-- The header as one 48-bit value `H`; `H[47]` is the first bit on the wire (R34). -/
abbrev HeaderWord := BitVec 48

/-- A byte sequence in offset order, offset 0 first on the wire (R10). It is the only kind of memory the
codec reads or writes (R31): offsets run from 0 to the length minus 1, and equal sequences are equal lists. -/
abbrev ByteSeq := List Byte

end Sys2Proof
end

