-- ==== Sys2Proof/Syntax.lean ====
section
/-! DEFINITION. Header values, requests and the four operations (10_state.md R17, R19; 30_encoding.md R58). -/

namespace Sys2Proof

/-- Packet Type (R19, R51): Telemetry is coded 0, Telecommand 1. -/
inductive PacketType where
  | telemetry
  | telecommand
  deriving DecidableEq, Repr

/-- Sequence Flags (R19, R52): coded 0, 1, 2, 3 in this order. -/
inductive SeqFlags where
  | continuation
  | firstSegment
  | lastSegment
  | unsegmented
  deriving DecidableEq, Repr

/-- A header value: exactly the seven fields of R19, each held at exactly its width. It is immutable (R22). -/
structure Header where
  /-- Packet Version Number. -/
  pvn : BitVec 3
  /-- Packet Type. -/
  type : PacketType
  /-- Secondary Header Flag; true is the bit value 1, "secondary header present" (R53). -/
  shf : Bool
  /-- Application Process Identifier. -/
  apid : BitVec 11
  /-- Sequence Flags. -/
  sf : SeqFlags
  /-- Packet Sequence Count. -/
  sc : BitVec 14
  /-- Packet Data Length as it stands in the header: the declared payload length minus 1 (R56). -/
  dl : BitVec 16
  deriving DecidableEq, Repr

/-- The operation a request names (R58); there is no other (R81, R82). -/
inductive Op where
  | encode
  | decode
  | build
  | split
  deriving DecidableEq, Repr

/-- A request with its operands: one constructor per row of the opcode table. The numeric operands of the
encoder are natural numbers, so that every value reaches the range checks (R8, R59). -/
inductive Instr where
  /-- `ENCODE` (R67): pack a header for a payload of `plen` bytes. -/
  | encode (type : PacketType) (shf : Bool) (apid : Nat) (sf : SeqFlags) (sc : Nat) (plen : Nat)
  /-- `DECODE` (R73): unpack the header at the start of `buf`. -/
  | decode (buf : ByteSeq)
  /-- `BUILD` (R70): pack a header for `payload` and append the payload. -/
  | build (type : PacketType) (shf : Bool) (apid : Nat) (sf : SeqFlags) (sc : Nat) (payload : ByteSeq)
  /-- `SPLIT` (R76): unpack the header of `buf` and deliver the bytes after it. -/
  | split (buf : ByteSeq)
  deriving DecidableEq, Repr

/-- The operation of a request. -/
def Instr.op : Instr → Op
  | .encode _ _ _ _ _ _ => .encode
  | .decode _ => .decode
  | .build _ _ _ _ _ _ => .build
  | .split _ => .split

/-- A request as the codec's ports carry it: the operation select and the separately named operands of
R17 and R58. An operation reads the operands R58 gives it and no other port. -/
structure Request where
  op : BitVec 2
  type : BitVec 1
  shf : BitVec 1
  apid : Nat
  sf : BitVec 2
  sc : Nat
  plen : Nat
  payload : ByteSeq
  buf : ByteSeq
  deriving DecidableEq, Repr

end Sys2Proof
end

