-- ==== Sys2Proof/Decode.lean ====
section
/-! DEFINITION. From a request's ports to the operation it names and back (30_encoding.md R51, R52, R53, R58),
and the opcode table. -/

namespace Sys2Proof

/-- The bit of a Packet Type (R51). -/
def PacketType.bit : PacketType → BitVec 1
  | .telemetry => 0#1
  | .telecommand => 1#1

/-- The Packet Type of a bit (R51): both values are legal. -/
def PacketType.ofBit (b : BitVec 1) : PacketType :=
  if b = 0#1 then .telemetry else .telecommand

/-- The two bits of Sequence Flags (R52). -/
def SeqFlags.bits : SeqFlags → BitVec 2
  | .continuation => 0#2
  | .firstSegment => 1#2
  | .lastSegment => 2#2
  | .unsegmented => 3#2

/-- The Sequence Flags of two bits (R52): all four values are legal. -/
def SeqFlags.ofBits (b : BitVec 2) : SeqFlags :=
  if b = 0#2 then .continuation
  else if b = 1#2 then .firstSegment
  else if b = 2#2 then .lastSegment
  else .unsegmented

/-- The bit of a Secondary Header Flag (R53). -/
def flagBit (shf : Bool) : BitVec 1 := BitVec.ofBool shf

/-- The Secondary Header Flag of a bit (R53). -/
def flagOfBit (b : BitVec 1) : Bool := b == 1#1

/-- The operation select code (R58). -/
def Op.code : Op → BitVec 2
  | .encode => 0b00#2
  | .decode => 0b01#2
  | .build => 0b10#2
  | .split => 0b11#2

/-- The operation of a select code (R58). No code is illegal or reserved (R59), so nothing is rejected. -/
def Op.ofCode (c : BitVec 2) : Op :=
  if c = 0b00#2 then .encode
  else if c = 0b01#2 then .decode
  else if c = 0b10#2 then .build
  else .split

/-- The name the opcode table gives the operation. -/
def Op.mnemonic : Op → String
  | .encode => "ENCODE"
  | .decode => "DECODE"
  | .build => "BUILD"
  | .split => "SPLIT"

/-- One row of the opcode table: a select word `w` is the row's when `w` under `mask` is `pattern`. -/
structure OpcodeRow where
  op : Op
  pattern : Nat
  mask : Nat
  deriving DecidableEq, Repr

/-- The opcode table (R58). -/
def opcodeTable : List OpcodeRow :=
  [ { op := .encode, pattern := 0x0, mask := 0x3 },
    { op := .decode, pattern := 0x1, mask := 0x3 },
    { op := .build, pattern := 0x2, mask := 0x3 },
    { op := .split, pattern := 0x3, mask := 0x3 } ]

/-- The request a set of ports presents: the operands R58 gives the selected operation are read, every other
port is ignored. Total, and without a rejection: R59. -/
def decode (r : Request) : Instr :=
  match Op.ofCode r.op with
  | .encode =>
      .encode (PacketType.ofBit r.type) (flagOfBit r.shf) r.apid (SeqFlags.ofBits r.sf) r.sc r.plen
  | .decode => .decode r.buf
  | .build =>
      .build (PacketType.ofBit r.type) (flagOfBit r.shf) r.apid (SeqFlags.ofBits r.sf) r.sc r.payload
  | .split => .split r.buf

/-- Ports that select `op` and carry zero on every numeric operand and the empty byte sequence on the others. -/
def Request.bare (op : BitVec 2) : Request :=
  { op := op, type := 0#1, shf := 0#1, apid := 0, sf := 0#2, sc := 0, plen := 0, payload := [], buf := [] }

/-- The ports of a request (R58). A port the operation does not read carries zero or the empty sequence
(log entry 5). -/
def encode (i : Instr) : Request :=
  match i with
  | .encode type shf apid sf sc plen =>
      { Request.bare i.op.code with
        type := type.bit, shf := flagBit shf, apid := apid, sf := sf.bits, sc := sc, plen := plen }
  | .decode buf => { Request.bare i.op.code with buf := buf }
  | .build type shf apid sf sc payload =>
      { Request.bare i.op.code with
        type := type.bit, shf := flagBit shf, apid := apid, sf := sf.bits, sc := sc, payload := payload }
  | .split buf => { Request.bare i.op.code with buf := buf }

/-- The ports of a request with every port its operation does not read put to zero or the empty sequence. -/
def Request.usedPorts (r : Request) : Request :=
  match Op.ofCode r.op with
  | .encode => { r with payload := [], buf := [] }
  | .decode => { Request.bare r.op with buf := r.buf }
  | .build => { r with plen := 0, buf := [] }
  | .split => { Request.bare r.op with buf := r.buf }

/-- The request an opcode-table word of `nbits` bits presents: its bits 1 and 0 are the operation select (the
table's mask is 3), and every operand, which the table gives no bits, is zero or empty (log entry 6). -/
def requestOfWord (nbits w : Nat) : Request :=
  Request.bare (BitVec.ofNat 2 (w % 2 ^ nbits))

/-- The instruction the decoder reads from an opcode-table word. -/
def decodeTableWord (nbits w : Nat) : Option Instr :=
  some (decode (requestOfWord nbits w))

end Sys2Proof
end

