-- ==== Sys2Proof/Config.lean ====
section
/-! DEFINITION. The fixed values of 00_scope.md R7 and the parameters of R8. -/

namespace Sys2Proof.Config

/-- HDR_LEN (R7): the header's length in bytes. -/
abbrev hdrLen : Nat := 6

/-- PVN_VALUE (R7): the Packet Version Number the encoder writes. -/
abbrev pvnValue : BitVec 3 := 0#3

/-- APID_MAX (R7): the largest APID. -/
abbrev apidMax : Nat := 2047

/-- SC_MAX (R7): the largest Packet Sequence Count. -/
abbrev scMax : Nat := 16383

/-- DL_MAX (R7): the largest Packet Data Length field. -/
abbrev dlMax : Nat := 65535

/-- PLEN_MIN (R7): the smallest payload length the encoder takes. -/
abbrev plenMin : Nat := 1

/-- PLEN_MAX (R7): the largest payload length the encoder takes, and MAX_TX_PAYLOAD (R8). -/
abbrev plenMax : Nat := 65536

/-- The widths in bits of the encoder's three numeric input ports: APID_IN_W, SC_IN_W, LEN_IN_W (R8).
They say which numbers can be presented; the operations take natural numbers, which includes every width. -/
structure PortWidths where
  apidIn : Nat
  scIn : Nat
  lenIn : Nat
  deriving DecidableEq, Repr

/-- The widths R8 allows: at least 12, 15 and 17 bits. -/
def PortWidths.legal (w : PortWidths) : Bool :=
  decide (12 ≤ w.apidIn) && decide (15 ≤ w.scIn) && decide (17 ≤ w.lenIn)

/-- The spec's default widths (R8). -/
abbrev PortWidths.default : PortWidths := { apidIn := 16, scIn := 16, lenIn := 32 }

/-- MAX_RX (R8) is a natural number not below 6, or unbounded (`none`). -/
def maxRxLegal (maxRx : Option Nat) : Bool :=
  match maxRx with
  | none => true
  | some limit => decide (hdrLen ≤ limit)

/-- A received byte sequence of `length` bytes is no longer than MAX_RX (R8, R17). -/
def rxAdmits (maxRx : Option Nat) (length : Nat) : Bool :=
  match maxRx with
  | none => true
  | some limit => decide (length ≤ limit)

end Sys2Proof.Config
end

