-- ==== Sys2Proof/Machine/State.lean ====
section
/-! DEFINITION. What a model of the codec holds. The codec itself holds no architectural state (10_state.md R15,
R23 to R28): State is the transaction interface, requests presented and transactions done, and the open
parameter MAX_RX. -/

namespace Sys2Proof.Machine

/-- A response (R18). An error response carries no bytes, no packet and no fields (R86). -/
inductive Response where
  /-- `OK_HDR`: the 6 header bytes, from `ENCODE`. -/
  | okHdr (bytes : ByteSeq)
  /-- `OK_PKT`: header and payload bytes, from `BUILD`. -/
  | okPkt (bytes : ByteSeq)
  /-- `OK_FIELDS`: a header value, from `DECODE`. -/
  | okFields (h : Header)
  /-- `OK_SPLIT`: a header value and the bytes after offset 5, from `SPLIT`. -/
  | okSplit (h : Header) (payload : ByteSeq)
  /-- `ERR_RANGE`: the mask of the range checks that failed (R61), from `ENCODE` and `BUILD`. -/
  | errRange (cause : BitVec 4)
  /-- `ERR_TRUNC_HDR`, from `DECODE` and `SPLIT`. -/
  | errTruncHdr
  deriving DecidableEq, Repr

/-- One request and its one response (R16). -/
structure Transaction where
  request : Instr
  response : Response
  deriving DecidableEq, Repr

/-- The machine: what stands at its interface, and MAX_RX. -/
structure State where
  /-- The parameter MAX_RX (R8): the longest byte sequence `DECODE` and `SPLIT` accept, `none` for unbounded.
  No step changes it (log entry 2). -/
  maxRx : Option Nat
  /-- Requests presented and not yet answered, oldest first (R16). -/
  pending : List Request
  /-- Transactions done, oldest first: all a claim can observe (R15). No operation reads them (log entry 1). -/
  transactions : List Transaction
  deriving DecidableEq, Repr

/-- What stops a reader of a response. No step of the codec ends in one (R99: an error response is an ordinary
outcome of a step). -/
inductive Fault where
  /-- A result output of an error response was read (R86, R99). Raised by the response readers of
  Machine/Ops.lean. Safe: such a read has no value in the model. -/
  | resultOfErrorResponse
  /-- A result output, or the cause mask, was read that this kind of response does not carry (R18, R60).
  Raised by the response readers of Machine/Ops.lean. Safe: such a read has no value in the model. -/
  | noSuchOutput
  /-- The reserved status code 3 was observed (R60, U10). Raised by the status reader of Machine/Flags.lean. Safe:
  the codec never produces it. -/
  | reservedStatus
  deriving DecidableEq, Repr

/-- Why a request has no step. -/
inductive Refusal where
  /-- An instruction without a meaning. No arm of `exec` raises it: all four operations are modelled. Safe. -/
  | notModelled (mnemonic : String)
  /-- The request's byte sequence is longer than MAX_RX (R99, D12). Raised by `DECODE` and `SPLIT`. Safe: the spec
  gives such a request no step. A step is refused only where no other request waits (log entry 19). -/
  | inputTooLong
  deriving DecidableEq, Repr

/-- Right after reset (R100): no request is waiting for a response and no transaction has been done. MAX_RX is
unbounded (DESIGN CHOICE, log entry 2). -/
def State.reset : State :=
  { maxRx := none, pending := [], transactions := [] }

end Sys2Proof.Machine
end

