-- ==== Sys2Proof/Machine/Flags.lean ====
section
/-! DEFINITION. Everything a response indicates besides its result: the range-error cause mask (30_encoding.md R61,
40_encoder.md R69) and the response status (R60). The codec has no flags register (10_state.md R26). -/

namespace Sys2Proof.Machine

/-- C_APID (R61): the APID exceeds 11 bits. -/
def causeApid (apid : Nat) : Bool := decide (Config.apidMax < apid)

/-- C_SC (R61): the Packet Sequence Count exceeds 14 bits. -/
def causeSc (sc : Nat) : Bool := decide (Config.scMax < sc)

/-- C_LEN_ZERO (R61): a zero-length payload was requested. -/
def causeLenZero (plen : Nat) : Bool := decide (plen = 0)

/-- C_LEN_OVER (R61): the payload is longer than the length field can declare. -/
def causeLenOver (plen : Nat) : Bool := decide (Config.plenMax < plen)

/-- The cause mask (R61): bit 0 C_APID, bit 1 C_SC, bit 2 C_LEN_ZERO, bit 3 C_LEN_OVER. Every check is evaluated
on every request (R69). -/
def rangeCause (apid sc plen : Nat) : BitVec 4 :=
  BitVec.ofBool (causeLenOver plen) ++ BitVec.ofBool (causeLenZero plen)
    ++ BitVec.ofBool (causeSc sc) ++ BitVec.ofBool (causeApid apid)

/-- What a response's status says (R60). -/
inductive Status where
  | success
  | rangeError
  | truncatedHeader
  deriving DecidableEq, Repr

/-- The 2-bit status code `err` (R60). Code 3 is never produced. -/
def Status.code : Status → BitVec 2
  | .success => 0#2
  | .rangeError => 1#2
  | .truncatedHeader => 2#2

/-- The status of a response (R60, R84). -/
def Response.status : Response → Status
  | .okHdr _ => .success
  | .okPkt _ => .success
  | .okFields _ => .success
  | .okSplit _ _ => .success
  | .errRange _ => .rangeError
  | .errTruncHdr => .truncatedHeader

/-- Reading a status code: an observed 3 is a fault (R60, U10). -/
def readStatus (err : BitVec 2) : Except Fault Status :=
  if err = 0#2 then .ok .success
  else if err = 1#2 then .ok .rangeError
  else if err = 2#2 then .ok .truncatedHeader
  else .error .reservedStatus

end Sys2Proof.Machine
end

