-- ==== Sys2Proof/Machine/Operands.lean ====
section
/-! DEFINITION. The header format: operand assembly of the encoder (30_encoding.md R49), operand decoding of the
decoder (R50), and the three views of the header bytes (20_memory.md R34). -/

namespace Sys2Proof.Machine

/-- `w0 = {pvn, type, shf, apid}` (R49). -/
def headerWord0 (h : Header) : Word16 := h.pvn ++ h.type.bit ++ flagBit h.shf ++ h.apid

/-- `w1 = {sf, sc}` (R49). -/
def headerWord1 (h : Header) : Word16 := h.sf.bits ++ h.sc

/-- `w2 = dl` (R49). -/
def headerWord2 (h : Header) : Word16 := h.dl

/-- `w[15:8]`, the byte of a word at the lower offset (R33, R34). -/
def highByte (w : Word16) : Byte := w.extractLsb' 8 8

/-- `w[7:0]`, the byte of a word at the higher offset (R33, R34). -/
def lowByte (w : Word16) : Byte := w.extractLsb' 0 8

/-- The 48-bit value of the header bytes, `H = {b0, b1, b2, b3, b4, b5}` (R34). -/
def headerWordOfBytes (b0 b1 b2 b3 b4 b5 : Byte) : HeaderWord := b0 ++ b1 ++ b2 ++ b3 ++ b4 ++ b5

/-- The big-endian word of two bytes, the first the more significant (R34). -/
def wordOfBytes (hi lo : Byte) : Word16 := hi ++ lo

/-- Unpacking (R50): the seven fields of the header bytes `b0` to `b5`. -/
def unpackHeader (b0 b1 b2 b3 b4 b5 : Byte) : Header :=
  { pvn := b0.extractLsb' 5 3
    type := PacketType.ofBit (b0.extractLsb' 4 1)
    shf := flagOfBit (b0.extractLsb' 3 1)
    apid := b0.extractLsb' 0 3 ++ b1
    sf := SeqFlags.ofBits (b2.extractLsb' 6 2)
    sc := b2.extractLsb' 0 6 ++ b3
    dl := b4 ++ b5 }

/-- The payload length a header declares, `dl + 1` (R56). The codec computes it nowhere (R75); a caller does. -/
def declaredPayloadLength (h : Header) : Nat := h.dl.toNat + 1

/-- The packet length a header declares, `6 + dl + 1` (R57). -/
def declaredPacketLength (h : Header) : Nat := 6 + declaredPayloadLength h

/-- The caller's check for `TruncatedPayloadError` (60_exceptions.md R85): fewer payload bytes were received than the
header declares. The codec never makes it. -/
def payloadTruncated (h : Header) (payload : ByteSeq) : Bool :=
  decide (payload.length < declaredPayloadLength h)

end Sys2Proof.Machine
end

