-- ==== Sys2Proof/WellFormed.lean ====
section
/-! DEFINITION. Which requests can be presented: port widths (00_scope.md R8, 30_encoding.md R59) and MAX_RX
(10_state.md R17). -/

namespace Sys2Proof

/-- The numeric operands fit the encoder's input ports (R59: an operand outside its port's width cannot be
presented). -/
def Instr.fitsPorts (w : Config.PortWidths) : Instr → Bool
  | .encode _ _ apid _ sc plen =>
      decide (apid < 2 ^ w.apidIn) && decide (sc < 2 ^ w.scIn) && decide (plen < 2 ^ w.lenIn)
  | .decode _ => true
  | .build _ _ apid _ sc _ => decide (apid < 2 ^ w.apidIn) && decide (sc < 2 ^ w.scIn)
  | .split _ => true

/-- A received byte sequence is no longer than MAX_RX (R17). -/
def Instr.admitted (maxRx : Option Nat) : Instr → Bool
  | .encode _ _ _ _ _ _ => true
  | .decode buf => Config.rxAdmits maxRx buf.length
  | .build _ _ _ _ _ _ => true
  | .split buf => Config.rxAdmits maxRx buf.length

/-- A well-formed request on a codec with port widths `w` and longest received sequence `maxRx`. -/
def Instr.wellFormed (w : Config.PortWidths) (maxRx : Option Nat) (i : Instr) : Bool :=
  i.fitsPorts w && i.admitted maxRx

end Sys2Proof
end

