-- ==== Sys2Proof/Machine/Ops.lean ====
section
/-! DEFINITION. The shared operations: bytes of a sequence (00_scope.md R11), the header bytes, ending a transaction
with a success or an error (60_exceptions.md R89), a caller's reads of a response (R86), and the interface: a request
presented, the next one taken, reset asserted (70_reset_and_hazards.md R100, R101). -/

namespace Sys2Proof.Machine

/-- `MemRead(i, 1)` (R11, R36). An offset at or beyond the length addresses nothing (R32). -/
def memRead (bytes : ByteSeq) (offset : Nat) : Option Byte := bytes[offset]?

/-- `MemWrite(i, 1, v)` (R11) on an output sequence that is written in rising offset order: the byte at the offset
becomes `v`, every other byte stays. -/
def memWrite (out : ByteSeq) (offset : Nat) (v : Byte) : ByteSeq :=
  out.take offset ++ v :: out.drop (offset + 1)

/-- The two byte writes of a big-endian word at `offset` and `offset + 1` (R34). -/
def memWriteWord (out : ByteSeq) (offset : Nat) (w : Word16) : ByteSeq :=
  memWrite (memWrite out offset (highByte w)) (offset + 1) (lowByte w)

/-- The six header bytes, written to a fresh output sequence (R38, R49). -/
def packHeader (h : Header) : ByteSeq :=
  memWriteWord (memWriteWord (memWriteWord [] 0 (headerWord0 h)) 2 (headerWord1 h)) 4 (headerWord2 h)

/-- An error the codec raises (R84). -/
inductive CodecError where
  /-- `RangeError` with the mask of the checks that failed. -/
  | range (cause : BitVec 4)
  /-- `TruncatedHeaderError`. -/
  | truncatedHeader
  deriving DecidableEq, Repr

/-- The error response of an error (R84, R86): a typed response that carries no result. -/
def CodecError.response : CodecError → Response
  | .range cause => .errRange cause
  | .truncatedHeader => .errTruncHdr

/-- The state after the transaction of request `i` with response `r`: nothing but the record of transactions
changes (R15). -/
def State.answered (s : State) (i : Instr) (r : Response) : State :=
  { s with transactions := s.transactions ++ [{ request := i, response := r }] }

/-- `respond`: ends the operation of request `i` with response `r` (R11, R16). -/
def respond (i : Instr) (r : Response) (s : State) : Host.Outcome State Fault Refusal :=
  .next (s.answered i r)

/-- `raise`: ends the operation of request `i` with an error response, and nothing else happens: no state is saved,
control goes nowhere (R89). There is no return from an error (R90). -/
def raiseError (i : Instr) (e : CodecError) (s : State) : Host.Outcome State Fault Refusal :=
  respond i e.response s

/-- A request is presented behind those already waiting. -/
def State.present (s : State) (r : Request) : State := { s with pending := s.pending ++ [r] }

/-- A request is presented so that it is the next one taken. -/
def State.presentNext (s : State) (r : Request) : State := { s with pending := r :: s.pending }

/-- The oldest of the waiting requests that MAX_RX admits, and the other requests, in their order. A request longer than
MAX_RX has no step (R99) and is passed over, so that every admitted one has (R16, R108). -/
def takeAdmitted (maxRx : Option Nat) : List Request → Option (Request × List Request)
  | [] => none
  | r :: rest =>
    if (decode r).admitted maxRx then some (r, rest)
    else
      match takeAdmitted maxRx rest with
      | none => none
      | some (q, others) => some (q, r :: others)

/-- The request a step takes, and the state in which it is being carried out: the oldest that MAX_RX admits (the order
is the model's choice, log entry 16), or, when only requests longer than MAX_RX wait, the oldest of those, which is then
refused (log entry 19). -/
def fetch (s : State) : Option (Request × State) :=
  match takeAdmitted s.maxRx s.pending with
  | some (r, others) => some (r, { s with pending := others })
  | none =>
    match s.pending with
    | [] => none
    | r :: rest => some (r, { s with pending := rest })

/-- Reset is asserted (R100, R101): requests presented and not yet answered get no response. No value is set, and
responses already given stay given (log entry 8). -/
def State.assertReset (s : State) : State := { s with pending := [] }

/-- A caller reads the header bytes of an `ENCODE` response. -/
def readHeaderBytes : Response → Except Fault ByteSeq
  | .okHdr bytes => .ok bytes
  | .okPkt _ => .error .noSuchOutput
  | .okFields _ => .error .noSuchOutput
  | .okSplit _ _ => .error .noSuchOutput
  | .errRange _ => .error .resultOfErrorResponse
  | .errTruncHdr => .error .resultOfErrorResponse

/-- A caller reads the packet of a `BUILD` response. -/
def readPacket : Response → Except Fault ByteSeq
  | .okHdr _ => .error .noSuchOutput
  | .okPkt bytes => .ok bytes
  | .okFields _ => .error .noSuchOutput
  | .okSplit _ _ => .error .noSuchOutput
  | .errRange _ => .error .resultOfErrorResponse
  | .errTruncHdr => .error .resultOfErrorResponse

/-- A caller reads the header value of a `DECODE` or `SPLIT` response; its seven fields are named accessors (R21). -/
def readFields : Response → Except Fault Header
  | .okHdr _ => .error .noSuchOutput
  | .okPkt _ => .error .noSuchOutput
  | .okFields h => .ok h
  | .okSplit h _ => .ok h
  | .errRange _ => .error .resultOfErrorResponse
  | .errTruncHdr => .error .resultOfErrorResponse

/-- A caller reads the payload of a `SPLIT` response. -/
def readPayload : Response → Except Fault ByteSeq
  | .okHdr _ => .error .noSuchOutput
  | .okPkt _ => .error .noSuchOutput
  | .okFields _ => .error .noSuchOutput
  | .okSplit _ payload => .ok payload
  | .errRange _ => .error .resultOfErrorResponse
  | .errTruncHdr => .error .resultOfErrorResponse

/-- A caller reads the cause mask, which is valid in an `ERR_RANGE` response only (R60). -/
def readCause : Response → Except Fault (BitVec 4)
  | .okHdr _ => .error .noSuchOutput
  | .okPkt _ => .error .noSuchOutput
  | .okFields _ => .error .noSuchOutput
  | .okSplit _ _ => .error .noSuchOutput
  | .errRange cause => .ok cause
  | .errTruncHdr => .error .noSuchOutput

end Sys2Proof.Machine
end

