-- ==== Sys2Proof/Machine/Decoder.lean ====
section
/-! DEFINITION. The decoder family (41_decoder.md): `DECODE` R73, `SPLIT` R76. -/

namespace Sys2Proof.Machine

/-- The operation `DECODE` (R73): an error below 6 bytes, else the fields of the bytes at offsets 0 to 5. No other
byte is read (R37) and nothing but the length is validated (R74). -/
def decodeHeader (buf : ByteSeq) : Except CodecError Header :=
  match memRead buf 0, memRead buf 1, memRead buf 2, memRead buf 3, memRead buf 4, memRead buf 5 with
  | some b0, some b1, some b2, some b3, some b4, some b5 => .ok (unpackHeader b0 b1 b2 b3 b4 b5)
  | _, _, _, _, _, _ => .error .truncatedHeader

/-- The operation `SPLIT` (R76): the fields of `DECODE` and every byte from offset 6 on, whatever the declared
length (R57); none when there are exactly 6 bytes (R77). -/
def splitPacket (buf : ByteSeq) : Except CodecError (Header × ByteSeq) :=
  match decodeHeader buf with
  | .error e => .error e
  | .ok h => .ok (h, buf.drop Config.hdrLen)

/-- `DECODE` (R73). A sequence longer than MAX_RX has no step (R99). -/
def execDecode (buf : ByteSeq) (s : State) : Host.Outcome State Fault Refusal :=
  if Config.rxAdmits s.maxRx buf.length then
    match decodeHeader buf with
    | .ok h => respond (.decode buf) (.okFields h) s
    | .error e => raiseError (.decode buf) e s
  else
    .refused .inputTooLong

/-- `SPLIT` (R76). A sequence longer than MAX_RX has no step (R99). -/
def execSplit (buf : ByteSeq) (s : State) : Host.Outcome State Fault Refusal :=
  if Config.rxAdmits s.maxRx buf.length then
    match splitPacket buf with
    | .ok (h, payload) => respond (.split buf) (.okSplit h payload) s
    | .error e => raiseError (.split buf) e s
  else
    .refused .inputTooLong

end Sys2Proof.Machine
end

