-- ==== Sys2Proof/Machine/Encoder.lean ====
section
/-! DEFINITION. The encoder family (40_encoder.md): `ENCODE` R67, `BUILD` R70. -/

namespace Sys2Proof.Machine

/-- The header the encoder packs (R20): `pvn` is the constant 0, `dl` is `plen - 1` (R68). Formed only for operands
that pass the range checks. -/
def encoderHeader (type : PacketType) (shf : Bool) (apid : Nat) (sf : SeqFlags) (sc plen : Nat) : Header :=
  { pvn := Config.pvnValue
    type := type
    shf := shf
    apid := BitVec.ofNat 11 apid
    sf := sf
    sc := BitVec.ofNat 14 sc
    dl := BitVec.ofNat 16 (plen - 1) }

/-- The operation `ENCODE` (R67): the range checks of R69, all of them, then the six header bytes. -/
def encodeHeader (type : PacketType) (shf : Bool) (apid : Nat) (sf : SeqFlags) (sc plen : Nat) :
    Except CodecError ByteSeq :=
  if rangeCause apid sc plen = 0#4 then
    .ok (packHeader (encoderHeader type shf apid sf sc plen))
  else
    .error (.range (rangeCause apid sc plen))

/-- The operation `BUILD` (R70): `ENCODE` for the payload's length, then the payload, unchanged and in order. -/
def buildPacket (type : PacketType) (shf : Bool) (apid : Nat) (sf : SeqFlags) (sc : Nat) (payload : ByteSeq) :
    Except CodecError ByteSeq :=
  match encodeHeader type shf apid sf sc payload.length with
  | .error e => .error e
  | .ok hdr => .ok (hdr ++ payload)

/-- `ENCODE` (R67). -/
def execEncode (type : PacketType) (shf : Bool) (apid : Nat) (sf : SeqFlags) (sc plen : Nat) (s : State) :
    Host.Outcome State Fault Refusal :=
  match encodeHeader type shf apid sf sc plen with
  | .ok hdr => respond (.encode type shf apid sf sc plen) (.okHdr hdr) s
  | .error e => raiseError (.encode type shf apid sf sc plen) e s

/-- `BUILD` (R70). -/
def execBuild (type : PacketType) (shf : Bool) (apid : Nat) (sf : SeqFlags) (sc : Nat) (payload : ByteSeq)
    (s : State) : Host.Outcome State Fault Refusal :=
  match buildPacket type shf apid sf sc payload with
  | .ok packet => respond (.build type shf apid sf sc payload) (.okPkt packet) s
  | .error e => raiseError (.build type shf apid sf sc payload) e s

end Sys2Proof.Machine
end

