-- ==== Sys2Proof/Machine/Dispatch.lean ====
section
/-! DEFINITION. One arm per row of the opcode table. -/

namespace Sys2Proof.Machine

def exec (i : Instr) (s : State) : Host.Outcome State Fault Refusal :=
  match i with
  | .encode type shf apid sf sc plen => Sys2Proof.Machine.execEncode type shf apid sf sc plen s
  | .decode buf => Sys2Proof.Machine.execDecode buf s
  | .build type shf apid sf sc payload => Sys2Proof.Machine.execBuild type shf apid sf sc payload s
  | .split buf => Sys2Proof.Machine.execSplit buf s

end Sys2Proof.Machine
end

