-- ==== Sys2Proof/Machine/Step.lean ====
section
/-! DEFINITION. One step of the machine: one transaction (10_state.md R16). -/

namespace Sys2Proof.Machine

/-- One step: a request presented is taken and carried out as one indivisible transaction (R16). It is one that MAX_RX
admits wherever one waits (R16, R108), the oldest of them by the model's choice (log entry 16). A request longer than
MAX_RX has no step (R99): it is passed over, and where no other waits the step is refused (log entry 19). With no request
presented nothing happens (log entry 7). -/
def step (s : State) : Host.Outcome State Fault Refusal :=
  match fetch s with
  | none => .next s
  | some (r, s') => exec (decode r) s'

/-- A caller presents, as the next request to be taken, the one an opcode-table word selects (log entry 6). -/
def State.withFetchWord (s : State) (nbits w : Nat) : State :=
  s.presentNext (requestOfWord nbits w)

end Sys2Proof.Machine
end

