-- ==== Sys2Proof/Machine/Text.lean ====
section
/-! DEFINITION. The textual syntax of requests and responses (30_encoding.md R63, R64) and the one pseudo-operation
(R65). A rule of the syntax alone: no operation of the codec reads or writes text. -/

namespace Sys2Proof.Machine

/-- A text, as its characters in order. -/
abbrev Text := List Char

/-- Why a text is no request. -/
inductive TextError where
  /-- The first word names no operation of R58. -/
  | unknownOperation
  /-- The operands are not those R63 gives the operation, in its order. -/
  | badOperands
  /-- A `type`, `shf` or `sf` value that R63 does not list. -/
  | badField
  /-- Not a decimal number or a `0x` hexadecimal number. -/
  | badNumber
  /-- Not a sequence of two-digit hexadecimal bytes, nor `[]`. -/
  | badBytes
  deriving DecidableEq, Repr

/-! ### Numbers and bytes -/

/-- The hexadecimal digit of a number below 16, as the spec's examples write it. -/
def hexDigit (n : Nat) : Char :=
  if n < 10 then Char.ofNat (n + 48) else Char.ofNat (n + 55)

/-- The value of a digit in the given base, in either case of letter. -/
def digitValue (base : Nat) (c : Char) : Option Nat :=
  let v :=
    if 48 ≤ c.toNat ∧ c.toNat ≤ 57 then c.toNat - 48
    else if 65 ≤ c.toNat ∧ c.toNat ≤ 70 then c.toNat - 55
    else if 97 ≤ c.toNat ∧ c.toNat ≤ 102 then c.toNat - 87
    else base
  if v < base then some v else none

/-- The number whose digits continue the number `acc`. -/
def parseDigitsFrom (base acc : Nat) : Text → Option Nat
  | [] => some acc
  | c :: cs =>
    match digitValue base c with
    | none => none
    | some d => parseDigitsFrom base (base * acc + d) cs

/-- One digit or more. -/
def parseDigits (base : Nat) (cs : Text) : Option Nat :=
  match cs with
  | [] => none
  | _ :: _ => parseDigitsFrom base 0 cs

/-- `<n>` (R63): a decimal number or a `0x` hexadecimal number. -/
def parseNumber (cs : Text) : Except TextError Nat :=
  let digits :=
    match cs with
    | '0' :: 'x' :: rest => parseDigits 16 rest
    | _ => parseDigits 10 cs
  match digits with
  | none => .error .badNumber
  | some n => .ok n

/-- The decimal digits of `n`, least significant first; `fuel` exceeds their number. -/
def decimalDigits : Nat → Nat → Text
  | 0, _ => []
  | fuel + 1, n =>
    if n < 10 then [hexDigit n] else hexDigit (n % 10) :: decimalDigits fuel (n / 10)

/-- A number in decimal. -/
def printNumber (n : Nat) : Text := (decimalDigits (n + 1) n).reverse

/-- Two hexadecimal digits. -/
def printByte (b : Byte) : Text := [hexDigit (b.toNat / 16), hexDigit (b.toNat % 16)]

/-- The bytes after the first, a space before each. -/
def printMoreBytes : ByteSeq → Text
  | [] => []
  | b :: bs => ' ' :: printByte b ++ printMoreBytes bs

/-- `<hex bytes>` (R63): two-digit bytes in offset order, `[]` for the empty sequence. -/
def printBytes : ByteSeq → Text
  | [] => "[]".toList
  | b :: bs => printByte b ++ printMoreBytes bs

/-- Two-digit bytes with spaces before, between and after them (R63: spaces optional). -/
def parseBytePairs : Text → Option ByteSeq
  | [] => some []
  | ' ' :: cs => parseBytePairs cs
  | hi :: lo :: cs =>
    match digitValue 16 hi, digitValue 16 lo, parseBytePairs cs with
    | some h, some l, some bs => some (BitVec.ofNat 8 (16 * h + l) :: bs)
    | _, _, _ => none
  | [_] => none

/-- `<hex bytes>` (R63). The empty sequence is written `[]` and in no other way. -/
def parseBytes (cs : Text) : Except TextError ByteSeq :=
  if cs = "[]".toList then .ok []
  else
    match parseBytePairs cs with
    | some (b :: bs) => .ok (b :: bs)
    | _ => .error .badBytes

/-! ### Named values (R51, R52, R53) -/

/-- `type=<TM|TC|0|1>` (R63). -/
def parseType (cs : Text) : Except TextError PacketType :=
  if cs = "TM".toList ∨ cs = "0".toList then .ok .telemetry
  else if cs = "TC".toList ∨ cs = "1".toList then .ok .telecommand
  else .error .badField

/-- `shf=<0|1>` (R63). -/
def parseFlag (cs : Text) : Except TextError Bool :=
  if cs = "0".toList then .ok false
  else if cs = "1".toList then .ok true
  else .error .badField

/-- `sf=<CONT|FIRST|LAST|UNSEG|0..3>` (R63). -/
def parseSeqFlags (cs : Text) : Except TextError SeqFlags :=
  if cs = "CONT".toList ∨ cs = "0".toList then .ok .continuation
  else if cs = "FIRST".toList ∨ cs = "1".toList then .ok .firstSegment
  else if cs = "LAST".toList ∨ cs = "2".toList then .ok .lastSegment
  else if cs = "UNSEG".toList ∨ cs = "3".toList then .ok .unsegmented
  else .error .badField

/-- The name of a Packet Type. -/
def printType : PacketType → Text
  | .telemetry => "TM".toList
  | .telecommand => "TC".toList

/-- The digit of a Secondary Header Flag. -/
def printFlag (shf : Bool) : Text := if shf then "1".toList else "0".toList

/-- The name of Sequence Flags. -/
def printSeqFlags : SeqFlags → Text
  | .continuation => "CONT".toList
  | .firstSegment => "FIRST".toList
  | .lastSegment => "LAST".toList
  | .unsegmented => "UNSEG".toList

/-! ### Requests (R63, R65) -/

/-- The pieces of a text between the characters `sep`. -/
def splitAtChar (sep : Char) : Text → List Text
  | [] => [[]]
  | c :: cs =>
    if c = sep then [] :: splitAtChar sep cs
    else
      match splitAtChar sep cs with
      | [] => [[c]]
      | piece :: pieces => (c :: piece) :: pieces

/-- A text without the spaces before and after it. -/
def trimSpaces (cs : Text) : Text :=
  ((cs.dropWhile (· == ' ')).reverse.dropWhile (· == ' ')).reverse

/-- An operand `key=value`, the spaces around it dropped. -/
def parseOperand (cs : Text) : Text × Text :=
  ((trimSpaces cs).takeWhile (· != '='), ((trimSpaces cs).dropWhile (· != '=')).drop 1)

/-- The operands of a request, in the order of the text. -/
def parseOperands (cs : Text) : List (Text × Text) := (splitAtChar ',' cs).map parseOperand

/-- The keys of an `ENCODE` or `BUILD` text (R63), the last being `plen` or `payload`. -/
def encoderKeys (last : String) : List Text :=
  ["type".toList, "shf".toList, "apid".toList, "sf".toList, "sc".toList, last.toList]

/-- The keys of an `ENCODE` or `BUILD` text without `sf=` (R65). -/
def encoderKeysNoSf (last : String) : List Text :=
  ["type".toList, "shf".toList, "apid".toList, "sc".toList, last.toList]

/-- The five operand values an `ENCODE` and a `BUILD` text share, and the text of the last one. -/
structure EncoderText where
  type : PacketType
  shf : Bool
  apid : Nat
  sf : SeqFlags
  sc : Nat
  last : Text
  deriving DecidableEq, Repr

/-- The operands of an `ENCODE` or `BUILD` text. Without `sf=` the text stands for the same operation with
`sf=UNSEG` (R65). -/
def parseEncoderText (last : String) (operands : List (Text × Text)) : Except TextError EncoderText :=
  if operands.map Prod.fst = encoderKeys last then
    match operands.map Prod.snd with
    | [type, shf, apid, sf, sc, rest] => do
        let type ← parseType type
        let shf ← parseFlag shf
        let apid ← parseNumber apid
        let sf ← parseSeqFlags sf
        let sc ← parseNumber sc
        return { type := type, shf := shf, apid := apid, sf := sf, sc := sc, last := rest }
    | _ => .error .badOperands
  else if operands.map Prod.fst = encoderKeysNoSf last then
    match operands.map Prod.snd with
    | [type, shf, apid, sc, rest] => do
        let type ← parseType type
        let shf ← parseFlag shf
        let apid ← parseNumber apid
        let sc ← parseNumber sc
        return { type := type, shf := shf, apid := apid, sf := .unsegmented, sc := sc, last := rest }
    | _ => .error .badOperands
  else .error .badOperands

/-- The `buf=` operand of a `DECODE` or `SPLIT` text (R63). -/
def parseBufText (operands : List (Text × Text)) : Except TextError ByteSeq :=
  match operands with
  | [(key, value)] => if key = "buf".toList then parseBytes value else .error .badOperands
  | _ => .error .badOperands

/-- The request a text stands for (R63, R65). -/
def parseRequest (cs : Text) : Except TextError Instr :=
  let name := (trimSpaces cs).takeWhile (· != ' ')
  let operands := parseOperands ((trimSpaces cs).dropWhile (· != ' '))
  if name = Op.encode.mnemonic.toList then do
    let t ← parseEncoderText "plen" operands
    let plen ← parseNumber t.last
    return .encode t.type t.shf t.apid t.sf t.sc plen
  else if name = Op.decode.mnemonic.toList then do
    let buf ← parseBufText operands
    return .decode buf
  else if name = Op.build.mnemonic.toList then do
    let t ← parseEncoderText "payload" operands
    let payload ← parseBytes t.last
    return .build t.type t.shf t.apid t.sf t.sc payload
  else if name = Op.split.mnemonic.toList then do
    let buf ← parseBufText operands
    return .split buf
  else .error .unknownOperation

/-- An operand as it is written, a space before it: ` key=value`. -/
def printOperand (operand : Text × Text) : Text := ' ' :: (operand.1 ++ '=' :: operand.2)

/-- The operands of a request, a comma between each and the next. -/
def printOperands : List (Text × Text) → Text
  | [] => []
  | [operand] => printOperand operand
  | operand :: more => printOperand operand ++ ',' :: printOperands more

/-- The operands of an `ENCODE` or `BUILD` text, `last` among them; without flags `sf=` is left out (R65). -/
def encoderOperands (type : PacketType) (shf : Bool) (apid : Nat) (sf : Option SeqFlags) (sc : Nat)
    (last : Text × Text) : List (Text × Text) :=
  match sf with
  | some flags =>
      [("type".toList, printType type), ("shf".toList, printFlag shf), ("apid".toList, printNumber apid),
        ("sf".toList, printSeqFlags flags), ("sc".toList, printNumber sc), last]
  | none =>
      [("type".toList, printType type), ("shf".toList, printFlag shf), ("apid".toList, printNumber apid),
        ("sc".toList, printNumber sc), last]

/-- An `ENCODE` text, with or without `sf=` (R63, R65). -/
def printEncode (type : PacketType) (shf : Bool) (apid : Nat) (sf : Option SeqFlags) (sc plen : Nat) : Text :=
  Op.encode.mnemonic.toList
    ++ printOperands (encoderOperands type shf apid sf sc ("plen".toList, printNumber plen))

/-- A `BUILD` text, with or without `sf=` (R63, R65). -/
def printBuild (type : PacketType) (shf : Bool) (apid : Nat) (sf : Option SeqFlags) (sc : Nat) (payload : ByteSeq) :
    Text :=
  Op.build.mnemonic.toList
    ++ printOperands (encoderOperands type shf apid sf sc ("payload".toList, printBytes payload))

/-- A request in the syntax of R63. -/
def printRequest : Instr → Text
  | .encode type shf apid sf sc plen => printEncode type shf apid (some sf) sc plen
  | .decode buf => Op.decode.mnemonic.toList ++ printOperands [("buf".toList, printBytes buf)]
  | .build type shf apid sf sc payload => printBuild type shf apid (some sf) sc payload
  | .split buf => Op.split.mnemonic.toList ++ printOperands [("buf".toList, printBytes buf)]

/-! ### Responses (R64) -/

/-- ` pvn=<n> type=<n> shf=<n> apid=<n> sf=<n> sc=<n> dl=<n>` (R64). -/
def printFields (h : Header) : Text :=
  " pvn=".toList ++ printNumber h.pvn.toNat ++ " type=".toList ++ printNumber h.type.bit.toNat
    ++ " shf=".toList ++ printFlag h.shf ++ " apid=".toList ++ printNumber h.apid.toNat
    ++ " sf=".toList ++ printNumber h.sf.bits.toNat ++ " sc=".toList ++ printNumber h.sc.toNat
    ++ " dl=".toList ++ printNumber h.dl.toNat

/-- `0b<4 bits>`, the most significant bit first (R64). -/
def printCause (cause : BitVec 4) : Text :=
  "0b".toList ++ printFlag (cause.getLsbD 3) ++ printFlag (cause.getLsbD 2)
    ++ printFlag (cause.getLsbD 1) ++ printFlag (cause.getLsbD 0)

/-- A response in the syntax of R64. -/
def printResponse : Response → Text
  | .okHdr bytes => "OK_HDR ".toList ++ printBytes bytes
  | .okPkt bytes => "OK_PKT ".toList ++ printBytes bytes
  | .okFields h => "OK_FIELDS".toList ++ printFields h
  | .okSplit h payload => "OK_SPLIT".toList ++ printFields h ++ " payload=".toList ++ printBytes payload
  | .errRange cause => "ERR_RANGE cause=".toList ++ printCause cause
  | .errTruncHdr => "ERR_TRUNC_HDR".toList

end Sys2Proof.Machine
end

