-- ==== Sys2Proof/Safety.lean ====
section
/-! DEFINITION. What a safe run of the codec is: every transaction done is one the spec allows (10_state.md R18,
30_encoding.md R60, R61, R62) and MAX_RX is a value it may have (00_scope.md R8). Written from those rules, without the
functions that carry the operations out. -/

namespace Sys2Proof.Machine

/-- The operands of an encoder request are in range (R55, R7). -/
def operandsInRange (apid sc plen : Nat) : Bool :=
  decide (apid ≤ 2047) && decide (sc ≤ 16383) && decide (1 ≤ plen) && decide (plen ≤ 65536)

/-- A cause mask an error response may carry (R61): not zero, and C_LEN_ZERO and C_LEN_OVER not both set. -/
def causeLegal (cause : BitVec 4) : Bool :=
  cause != 0#4 && !(cause.getLsbD 2 && cause.getLsbD 3)

/-- A response R18 lets an `ENCODE` or `BUILD` request have, `length` being the number of bytes a success carries. -/
def encoderResponseLawful (inRange : Bool) (length : Nat) (fromEncode : Bool) : Response → Bool
  | .okHdr bytes => fromEncode && inRange && bytes.length == length
  | .okPkt bytes => !fromEncode && inRange && bytes.length == length
  | .okFields _ => false
  | .okSplit _ _ => false
  | .errRange cause => !inRange && causeLegal cause
  | .errTruncHdr => false

/-- A response R18 lets a `DECODE` or `SPLIT` request with a byte sequence of `length` bytes have. -/
def decoderResponseLawful (length : Nat) (fromDecode : Bool) : Response → Bool
  | .okHdr _ => false
  | .okPkt _ => false
  | .okFields _ => fromDecode && decide (6 ≤ length)
  | .okSplit _ payload => !fromDecode && decide (6 ≤ length) && payload.length == length - 6
  | .errRange _ => false
  | .errTruncHdr => decide (length < 6)

/-- A transaction the spec allows: the response is of a kind and size R18 gives the request's operation, an error only
where R84 has one, with a cause mask R61 allows, and no received sequence longer than MAX_RX (R17). -/
def Transaction.lawful (maxRx : Option Nat) (t : Transaction) : Bool :=
  match t.request with
  | .encode _ _ apid _ sc plen => encoderResponseLawful (operandsInRange apid sc plen) 6 true t.response
  | .decode buf => Config.rxAdmits maxRx buf.length && decoderResponseLawful buf.length true t.response
  | .build _ _ apid _ sc payload =>
      encoderResponseLawful (operandsInRange apid sc payload.length) (6 + payload.length) false t.response
  | .split buf => Config.rxAdmits maxRx buf.length && decoderResponseLawful buf.length false t.response

/-- The safety invariant: MAX_RX is a value R8 allows and every transaction done is lawful. -/
def State.Inv (s : State) : Prop :=
  Config.maxRxLegal s.maxRx = true ∧ ∀ t ∈ s.transactions, t.lawful s.maxRx = true

end Sys2Proof.Machine
end

