-- ==== Sys2Proof/Certificates/Slice0/Obligations.lean ====
section
/-! DEFINITION. What is claimed of the codec. Every statement holds for every State, so for every MAX_RX, every queue of
requests and every past; the spec's own decisions and the model's are named in the docstrings. -/

open Sys2Proof Sys2Proof.Machine

/-! ### Encodings -/

/-- 30_encoding.md R58 (the select codes are the spec's decision D2): a table word, of any size of 2 bits or more, that
matches a row of the opcode table decodes to a request of that row's operation, and no word matches two rows. The bits
above the select code are ignored: log entry 6. -/
def Obligations.OpcodeRowsSelectTheirOperation : Prop :=
  (opcodeTable.map fun row => (row.op.mnemonic, row.pattern, row.mask)) =
      [("ENCODE", 0, 3), ("DECODE", 1, 3), ("BUILD", 2, 3), ("SPLIT", 3, 3)] ∧
    ∀ row ∈ opcodeTable, ∀ nbits w : Nat, 2 ≤ nbits → w &&& row.mask = row.pattern →
      (∃ i, decodeTableWord nbits w = some i ∧ i.op = row.op) ∧
        ∀ other ∈ opcodeTable, w &&& other.mask = other.pattern → other = row

/-- 30_encoding.md R58, R59: reading a request's ports gives back the request they were made from, with every operand
at every value; and the ports of what was read are the ports read, those the operation does not use put to zero or
empty (the model's choice for unused ports: log entry 5). -/
def Obligations.RequestPortsRoundTrip : Prop :=
  (∀ i : Instr, decode (encode i) = i) ∧ ∀ r : Request, encode (decode r) = r.usedPorts

/-- 30_encoding.md R50 ("Unpacking is the inverse of packing", which the spec marks as derived): for every header value
and for every six bytes. -/
def Obligations.HeaderPackUnpackInverse : Prop :=
  (∀ h : Header, ∃ b0 b1 b2 b3 b4 b5,
      packHeader h = [b0, b1, b2, b3, b4, b5] ∧ unpackHeader b0 b1 b2 b3 b4 b5 = h) ∧
    ∀ b0 b1 b2 b3 b4 b5 : Byte, packHeader (unpackHeader b0 b1 b2 b3 b4 b5) = [b0, b1, b2, b3, b4, b5]

/-- 30_encoding.md R48: the field positions in the 48-bit value, in the bytes and in the words, for every six bytes; and
the 48 bits are the seven fields and nothing else. -/
def Obligations.HeaderFieldPositions : Prop :=
  ∀ b0 b1 b2 b3 b4 b5 : Byte,
    let h := unpackHeader b0 b1 b2 b3 b4 b5
    let H := headerWordOfBytes b0 b1 b2 b3 b4 b5
    let w0 := wordOfBytes b0 b1
    let w1 := wordOfBytes b2 b3
    let w2 := wordOfBytes b4 b5
    (h.pvn = H.extractLsb' 45 3 ∧ h.pvn = b0.extractLsb' 5 3 ∧ h.pvn = w0.extractLsb' 13 3) ∧
      (h.type.bit = H.extractLsb' 44 1 ∧ h.type.bit = b0.extractLsb' 4 1 ∧ h.type.bit = w0.extractLsb' 12 1) ∧
      (flagBit h.shf = H.extractLsb' 43 1 ∧ flagBit h.shf = b0.extractLsb' 3 1 ∧
        flagBit h.shf = w0.extractLsb' 11 1) ∧
      (h.apid = H.extractLsb' 32 11 ∧ h.apid.extractLsb' 8 3 = b0.extractLsb' 0 3 ∧ h.apid.extractLsb' 0 8 = b1 ∧
        h.apid = w0.extractLsb' 0 11) ∧
      (h.sf.bits = H.extractLsb' 30 2 ∧ h.sf.bits = b2.extractLsb' 6 2 ∧ h.sf.bits = w1.extractLsb' 14 2) ∧
      (h.sc = H.extractLsb' 16 14 ∧ h.sc.extractLsb' 8 6 = b2.extractLsb' 0 6 ∧ h.sc.extractLsb' 0 8 = b3 ∧
        h.sc = w1.extractLsb' 0 14) ∧
      (h.dl = H.extractLsb' 0 16 ∧ h.dl.extractLsb' 8 8 = b4 ∧ h.dl.extractLsb' 0 8 = b5 ∧ h.dl = w2) ∧
      H = h.pvn ++ h.type.bit ++ flagBit h.shf ++ h.apid ++ h.sf.bits ++ h.sc ++ h.dl

/-- 30_encoding.md R49: the three words of a packed header as numbers (the spec marks the equations as derived). -/
def Obligations.PackedWordsAsNumbers : Prop :=
  ∀ h : Header, ∃ b0 b1 b2 b3 b4 b5,
    packHeader h = [b0, b1, b2, b3, b4, b5] ∧
      b0.toNat * 256 + b1.toNat =
        h.pvn.toNat * 8192 + h.type.bit.toNat * 4096 + (flagBit h.shf).toNat * 2048 + h.apid.toNat ∧
      b2.toNat * 256 + b3.toNat = h.sf.bits.toNat * 16384 + h.sc.toNat ∧
      b4.toNat * 256 + b5.toNat = h.dl.toNat

/-- 20_memory.md R34 (marked derived there): bytes, big-endian words and the 48-bit value are views of one header. -/
def Obligations.HeaderViewsAgree : Prop :=
  (∀ b0 b1 b2 b3 b4 b5 : Byte,
      let H := headerWordOfBytes b0 b1 b2 b3 b4 b5
      H = wordOfBytes b0 b1 ++ wordOfBytes b2 b3 ++ wordOfBytes b4 b5 ∧
        H.extractLsb' 40 8 = b0 ∧ H.extractLsb' 32 8 = b1 ∧ H.extractLsb' 24 8 = b2 ∧
        H.extractLsb' 16 8 = b3 ∧ H.extractLsb' 8 8 = b4 ∧ H.extractLsb' 0 8 = b5) ∧
    (∀ hi lo : Byte, highByte (wordOfBytes hi lo) = hi ∧ lowByte (wordOfBytes hi lo) = lo) ∧
    ∀ w : Word16, wordOfBytes (highByte w) (lowByte w) = w

/-- 95_test_vectors.md V1, D7, D5: a few headers written out bit by bit from R48; and the four select codes of R58 (the
spec's decision D2) as table words. That such a word's request has operands zero or empty is the model's choice (log
entry 6): R58 packs no operand into a word. -/
def Obligations.WrittenOutWordsDecode : Prop :=
  decodeTableWord 8 0b00 = some (.encode .telemetry false 0 .continuation 0 0) ∧
    decodeTableWord 8 0b01 = some (.decode []) ∧
    decodeTableWord 8 0b10 = some (.build .telemetry false 0 .continuation 0 []) ∧
    decodeTableWord 8 0b11 = some (.split []) ∧
    unpackHeader 0b00011000#8 0b00000001#8 0b11000000#8 0#8 0#8 0b00000011#8 =
      { pvn := 0, type := .telecommand, shf := true, apid := 1, sf := .unsegmented, sc := 0, dl := 3 } ∧
    unpackHeader 0b00010001#8 0b00100011#8 0b11000100#8 0b01010110#8 0b00001111#8 0b11111111#8 =
      { pvn := 0, type := .telecommand, shf := false, apid := 291, sf := .unsegmented, sc := 1110, dl := 4095 } ∧
    unpackHeader 0b11111111#8 0b11111111#8 0b11111111#8 0b11111111#8 0b11111111#8 0b11111111#8 =
      { pvn := 7, type := .telecommand, shf := true, apid := 2047, sf := .unsegmented, sc := 16383, dl := 65535 }

/-! ### The encoder family -/

/-- 40_encoder.md R67, R69: what an `ENCODE` answers, for every operand. In range: the six bytes, here as numbers; out
of range: the error with exactly the failed checks in its mask. Nothing else changes. (`shf` as an operand and the mask
are the spec's decisions D4 and D9.) -/
def Obligations.EncodeAnswersHeaderOrFailedChecks : Prop :=
  ∀ (type : PacketType) (shf : Bool) (apid : Nat) (sf : SeqFlags) (sc plen : Nat) (s : State),
    (apid ≤ 2047 ∧ sc ≤ 16383 ∧ 1 ≤ plen ∧ plen ≤ 65536 →
      ∃ b0 b1 b2 b3 b4 b5,
        exec (.encode type shf apid sf sc plen) s =
            .next (s.answered (.encode type shf apid sf sc plen) (.okHdr [b0, b1, b2, b3, b4, b5])) ∧
          b0.toNat = type.bit.toNat * 16 + (flagBit shf).toNat * 8 + apid / 256 ∧
          b1.toNat = apid % 256 ∧
          b2.toNat = sf.bits.toNat * 64 + sc / 256 ∧
          b3.toNat = sc % 256 ∧
          b4.toNat = (plen - 1) / 256 ∧
          b5.toNat = (plen - 1) % 256) ∧
      (¬(apid ≤ 2047 ∧ sc ≤ 16383 ∧ 1 ≤ plen ∧ plen ≤ 65536) →
        ∃ cause : BitVec 4,
          exec (.encode type shf apid sf sc plen) s =
              .next (s.answered (.encode type shf apid sf sc plen) (.errRange cause)) ∧
            (cause.getLsbD 0 = true ↔ 2047 < apid) ∧
            (cause.getLsbD 1 = true ↔ 16383 < sc) ∧
            (cause.getLsbD 2 = true ↔ plen = 0) ∧
            (cause.getLsbD 3 = true ↔ 65536 < plen))

/-- 40_encoder.md R68: an encoded length is the exact `plen - 1` of a length from 1 to 65536, and a length outside that
range forms none: the answer is an error. -/
def Obligations.EncodedLengthIsExact : Prop :=
  ∀ (type : PacketType) (shf : Bool) (apid : Nat) (sf : SeqFlags) (sc plen : Nat) (s : State),
    (∀ bytes,
      exec (.encode type shf apid sf sc plen) s =
          .next (s.answered (.encode type shf apid sf sc plen) (.okHdr bytes)) →
        1 ≤ plen ∧ plen ≤ 65536 ∧
          ∃ b4 b5, memRead bytes 4 = some b4 ∧ memRead bytes 5 = some b5 ∧
            b4.toNat * 256 + b5.toNat = plen - 1) ∧
      (plen = 0 ∨ 65536 < plen →
        ∃ cause, exec (.encode type shf apid sf sc plen) s =
          .next (s.answered (.encode type shf apid sf sc plen) (.errRange cause)))

/-- 40_encoder.md R72, 30_encoding.md R55 (an operand is never truncated): two successful `ENCODE` requests that give the
same bytes have the same operands. -/
def Obligations.EncodeLosesNoOperandBit : Prop :=
  ∀ (type type' : PacketType) (shf shf' : Bool) (apid apid' : Nat) (sf sf' : SeqFlags) (sc sc' plen plen' : Nat)
    (bytes : ByteSeq) (s s' : State),
    exec (.encode type shf apid sf sc plen) s =
        .next (s.answered (.encode type shf apid sf sc plen) (.okHdr bytes)) →
      exec (.encode type' shf' apid' sf' sc' plen') s' =
        .next (s'.answered (.encode type' shf' apid' sf' sc' plen') (.okHdr bytes)) →
      type = type' ∧ shf = shf' ∧ apid = apid' ∧ sf = sf' ∧ sc = sc' ∧ plen = plen'

/-- 40_encoder.md R70: a `BUILD` answers the bytes `ENCODE` gives for the payload's length with the payload after them, and
fails exactly where that `ENCODE` fails, with the same mask. -/
def Obligations.BuildIsEncodeThenPayload : Prop :=
  ∀ (type : PacketType) (shf : Bool) (apid : Nat) (sf : SeqFlags) (sc : Nat) (payload : ByteSeq) (s : State),
    (apid ≤ 2047 ∧ sc ≤ 16383 ∧ 1 ≤ payload.length ∧ payload.length ≤ 65536 →
      ∃ hdr,
        exec (.encode type shf apid sf sc payload.length) s =
            .next (s.answered (.encode type shf apid sf sc payload.length) (.okHdr hdr)) ∧
          exec (.build type shf apid sf sc payload) s =
            .next (s.answered (.build type shf apid sf sc payload) (.okPkt (hdr ++ payload))) ∧
          (hdr ++ payload).length = 6 + payload.length ∧
          (∀ k < 6, memRead (hdr ++ payload) k = memRead hdr k) ∧
          ∀ k, memRead (hdr ++ payload) (6 + k) = memRead payload k) ∧
      (¬(apid ≤ 2047 ∧ sc ≤ 16383 ∧ 1 ≤ payload.length ∧ payload.length ≤ 65536) →
        ∃ cause,
          exec (.encode type shf apid sf sc payload.length) s =
              .next (s.answered (.encode type shf apid sf sc payload.length) (.errRange cause)) ∧
            exec (.build type shf apid sf sc payload) s =
              .next (s.answered (.build type shf apid sf sc payload) (.errRange cause)))

/-- 20_memory.md R42: the content of a payload decides nothing. Two `BUILD` requests that differ only in the content of
payloads of one length both succeed with the same header, or both fail with the same mask. -/
def Obligations.BuildIgnoresPayloadContent : Prop :=
  ∀ (type : PacketType) (shf : Bool) (apid : Nat) (sf : SeqFlags) (sc : Nat) (p q : ByteSeq) (s : State),
    p.length = q.length →
      (∃ hdr,
        exec (.build type shf apid sf sc p) s =
            .next (s.answered (.build type shf apid sf sc p) (.okPkt (hdr ++ p))) ∧
          exec (.build type shf apid sf sc q) s =
            .next (s.answered (.build type shf apid sf sc q) (.okPkt (hdr ++ q)))) ∨
        ∃ cause,
          exec (.build type shf apid sf sc p) s =
              .next (s.answered (.build type shf apid sf sc p) (.errRange cause)) ∧
            exec (.build type shf apid sf sc q) s =
              .next (s.answered (.build type shf apid sf sc q) (.errRange cause))

/-- 30_encoding.md R54, 41_decoder.md R79: no encoder request produces a first byte whose Packet Version Number is not 0,
so no packet with another version is ever an encoder's output. -/
def Obligations.EncoderAlwaysWritesVersionZero : Prop :=
  (∀ type shf apid sf sc plen (s : State) bytes,
      exec (.encode type shf apid sf sc plen) s =
          .next (s.answered (.encode type shf apid sf sc plen) (.okHdr bytes)) →
        ∃ b0, memRead bytes 0 = some b0 ∧ b0.extractLsb' 5 3 = 0#3) ∧
    ∀ type shf apid sf sc payload (s : State) bytes,
      exec (.build type shf apid sf sc payload) s =
          .next (s.answered (.build type shf apid sf sc payload) (.okPkt bytes)) →
        ∃ b0, memRead bytes 0 = some b0 ∧ b0.extractLsb' 5 3 = 0#3

/-- 30_encoding.md R61 (the mask is the spec's decision D9): a mask is answered by some `ENCODE`, at any state, exactly
when it is not zero and does not have C_LEN_ZERO and C_LEN_OVER both set. -/
def Obligations.CauseMasksThatOccur : Prop :=
  ∀ (cause : BitVec 4) (s : State),
    (∃ type shf apid sf sc plen,
        exec (.encode type shf apid sf sc plen) s =
          .next (s.answered (.encode type shf apid sf sc plen) (.errRange cause))) ↔
      cause ≠ 0#4 ∧ ¬(cause.getLsbD 2 = true ∧ cause.getLsbD 3 = true)

/-- 30_encoding.md R53, 20_memory.md R42 (D19): the Secondary Header Flag is bit 3 of byte 0 and has no other effect. Setting
it adds 8 to the first byte an in-range `ENCODE` gives, and a decoder sees that bit flipped as the flag flipped. -/
def Obligations.SecondaryHeaderFlagIsOneBit : Prop :=
  (∀ (type : PacketType) (apid : Nat) (sf : SeqFlags) (sc plen : Nat) (s : State),
      apid ≤ 2047 → sc ≤ 16383 → 1 ≤ plen → plen ≤ 65536 →
        ∃ b0 b0' rest,
          exec (.encode type false apid sf sc plen) s =
              .next (s.answered (.encode type false apid sf sc plen) (.okHdr (b0 :: rest))) ∧
            exec (.encode type true apid sf sc plen) s =
              .next (s.answered (.encode type true apid sf sc plen) (.okHdr (b0' :: rest))) ∧
            b0'.toNat = b0.toNat + 8) ∧
    ∀ b0 b1 b2 b3 b4 b5 : Byte,
      unpackHeader (b0 ^^^ 8#8) b1 b2 b3 b4 b5 =
        { unpackHeader b0 b1 b2 b3 b4 b5 with shf := !(unpackHeader b0 b1 b2 b3 b4 b5).shf }

/-- 00_scope.md R8 (widths decided by D3): on every legal port width the requests of the source's boundary tests can be
presented, and on the default widths the largest values of the ports can, the next ones cannot. -/
def Obligations.BoundaryRequestsFitThePorts : Prop :=
  (∀ (w : Config.PortWidths) type shf sf apid sc plen,
      w.legal = true → apid ≤ 2048 → sc ≤ 16384 → plen ≤ 65537 →
        (Instr.encode type shf apid sf sc plen).fitsPorts w = true) ∧
    ∀ type shf sf apid sc plen,
      (Instr.encode type shf apid sf sc plen).fitsPorts Config.PortWidths.default = true ↔
        apid ≤ 65535 ∧ sc ≤ 65535 ∧ plen ≤ 4294967295

/-! ### The decoder family -/

/-- 41_decoder.md R73: what a `DECODE` answers, for every byte sequence MAX_RX admits: the error below six bytes, else the
fields of the first six bytes, here as numbers, whatever follows them. A version that is not 0 is delivered as read
(the spec's decision D6). -/
def Obligations.DecodeAnswersFieldsOrTruncation : Prop :=
  ∀ s : State,
    (∀ buf : ByteSeq, Config.rxAdmits s.maxRx buf.length = true → buf.length < 6 →
      exec (.decode buf) s = .next (s.answered (.decode buf) .errTruncHdr)) ∧
      ∀ (b0 b1 b2 b3 b4 b5 : Byte) (rest : ByteSeq),
        Config.rxAdmits s.maxRx (b0 :: b1 :: b2 :: b3 :: b4 :: b5 :: rest).length = true →
          ∃ h : Header,
            exec (.decode (b0 :: b1 :: b2 :: b3 :: b4 :: b5 :: rest)) s =
                .next (s.answered (.decode (b0 :: b1 :: b2 :: b3 :: b4 :: b5 :: rest)) (.okFields h)) ∧
              h.pvn.toNat = b0.toNat / 32 ∧
              h.type.bit.toNat = b0.toNat / 16 % 2 ∧
              (flagBit h.shf).toNat = b0.toNat / 8 % 2 ∧
              h.apid.toNat = b0.toNat % 8 * 256 + b1.toNat ∧
              h.sf.bits.toNat = b2.toNat / 64 ∧
              h.sc.toNat = b2.toNat % 64 * 256 + b3.toNat ∧
              h.dl.toNat = b4.toNat * 256 + b5.toNat

/-- 41_decoder.md R76: what a `SPLIT` answers, for every byte sequence MAX_RX admits: the error below six bytes, else the
fields `DECODE` answers and every byte from offset 6 on, unchanged and in order. -/
def Obligations.SplitIsDecodeAndTheRest : Prop :=
  ∀ (buf : ByteSeq) (s : State), Config.rxAdmits s.maxRx buf.length = true →
    (buf.length < 6 → exec (.split buf) s = .next (s.answered (.split buf) .errTruncHdr)) ∧
      (6 ≤ buf.length →
        ∃ h payload,
          exec (.decode buf) s = .next (s.answered (.decode buf) (.okFields h)) ∧
            exec (.split buf) s = .next (s.answered (.split buf) (.okSplit h payload)) ∧
            payload.length = buf.length - 6 ∧
            ∀ k, memRead payload k = memRead buf (6 + k))

/-- 60_exceptions.md R85, 41_decoder.md R74: fewer payload bytes than the header declares is no error of the codec. From
every `SPLIT` of six bytes or more a caller gets what it needs to see it: the check on the delivered header and
payload is the check on the received bytes and the two length bytes. -/
def Obligations.TruncatedPayloadIsTheCallersToSee : Prop :=
  ∀ (buf : ByteSeq) (b4 b5 : Byte) (s : State), Config.rxAdmits s.maxRx buf.length = true →
    memRead buf 4 = some b4 → memRead buf 5 = some b5 →
      ∃ h payload,
        exec (.split buf) s = .next (s.answered (.split buf) (.okSplit h payload)) ∧
          (payloadTruncated h payload = true ↔ buf.length - 6 < b4.toNat * 256 + b5.toNat + 1)

/-- 30_encoding.md R57, 20_memory.md R32 (its bound is marked derived): a built packet has 7 to 65542 bytes, and exactly as
many as its own header, read back on a codec without a receive limit, declares. -/
def Obligations.BuiltPacketHasItsDeclaredLength : Prop :=
  ∀ type shf apid sf sc payload (s : State) packet,
    exec (.build type shf apid sf sc payload) s =
        .next (s.answered (.build type shf apid sf sc payload) (.okPkt packet)) →
      7 ≤ packet.length ∧ packet.length ≤ 65542 ∧
        ∃ h, exec (.decode packet) { s with maxRx := none } =
            .next (State.answered { s with maxRx := none } (.decode packet) (.okFields h)) ∧
          packet.length = declaredPacketLength h

/-! ### Both families: the round-trip laws -/

/-- 41_decoder.md R78, the primary correctness contract (marked derived, read by 90_conflicts.md C5): what `BUILD` makes of
in-range fields and a payload of 1 to 65536 bytes, `SPLIT` takes apart into the same fields and payload, on every
codec whose MAX_RX admits the packet. -/
def Obligations.SplitInvertsBuild : Prop :=
  ∀ (type : PacketType) (shf : Bool) (apid : Nat) (sf : SeqFlags) (sc : Nat) (payload : ByteSeq) (s : State),
    apid ≤ 2047 → sc ≤ 16383 → 1 ≤ payload.length → payload.length ≤ 65536 →
      Config.rxAdmits s.maxRx (6 + payload.length) = true →
        ∃ packet h,
          exec (.build type shf apid sf sc payload) s =
              .next (s.answered (.build type shf apid sf sc payload) (.okPkt packet)) ∧
            exec (.split packet) s = .next (s.answered (.split packet) (.okSplit h payload)) ∧
            h.pvn = 0#3 ∧ h.type = type ∧ h.shf = shf ∧ h.apid.toNat = apid ∧ h.sf = sf ∧ h.sc.toNat = sc ∧
            h.dl.toNat = payload.length - 1

/-- 41_decoder.md R78, its second law, and 40_encoder.md R71 (both marked derived): the fields `DECODE` reads from the bytes
of a successful `ENCODE`, whatever bytes follow them, are the operands. -/
def Obligations.DecodeInvertsEncode : Prop :=
  ∀ (type : PacketType) (shf : Bool) (apid : Nat) (sf : SeqFlags) (sc plen : Nat) (bytes rest : ByteSeq)
    (s s' : State),
    exec (.encode type shf apid sf sc plen) s =
        .next (s.answered (.encode type shf apid sf sc plen) (.okHdr bytes)) →
      Config.rxAdmits s'.maxRx (bytes ++ rest).length = true →
        ∃ h,
          exec (.decode (bytes ++ rest)) s' =
              .next (s'.answered (.decode (bytes ++ rest)) (.okFields h)) ∧
            h.pvn = 0#3 ∧ h.type = type ∧ h.shf = shf ∧ h.apid.toNat = apid ∧ h.sf = sf ∧ h.sc.toNat = sc ∧
            h.dl.toNat = plen - 1

/-- 41_decoder.md R79, the inverse round trip (marked derived): rebuilding a split packet of version 0 gives the received
bytes back but for bytes 4 and 5, which hold the received payload's length minus 1; so it gives the received bytes
exactly when the declared length was right. -/
def Obligations.BuildInvertsSplitUpToLength : Prop :=
  ∀ (buf payload : ByteSeq) (h : Header) (s s' : State), 7 ≤ buf.length →
    exec (.split buf) s = .next (s.answered (.split buf) (.okSplit h payload)) →
      h.pvn = 0#3 → payload.length ≤ 65536 →
        ∃ buf' b4 b5,
          exec (.build h.type h.shf h.apid.toNat h.sf h.sc.toNat payload) s' =
              .next (s'.answered (.build h.type h.shf h.apid.toNat h.sf h.sc.toNat payload) (.okPkt buf')) ∧
            buf'.length = buf.length ∧
            (∀ k, k ≠ 4 → k ≠ 5 → memRead buf' k = memRead buf k) ∧
            memRead buf' 4 = some b4 ∧ memRead buf' 5 = some b5 ∧
            b4.toNat * 256 + b5.toNat = payload.length - 1 ∧
            (buf' = buf ↔ h.dl.toNat + 1 = payload.length)

/-! ### Transactions -/

/-- 10_state.md R16: a step carries out what the request it takes decodes to, on the state in which that request is no
longer waiting. A request longer than MAX_RX has no step (60_exceptions.md R99) and is passed over, so that it keeps no
admitted one from its response (R16, 70_reset_and_hazards.md R108). That the OLDEST admitted request is taken is the
model's choice (log entry 16): the spec leaves the order to the callers (20_memory.md R43). So is that the requests passed
over go on waiting and that a step which finds no other request is refused (log entry 19). -/
def Obligations.StepCarriesOutTheOldestRequest : Prop :=
  (∀ (before : List Request) (r : Request) (after : List Request) (i : Instr) (s : State),
      s.pending = before ++ r :: after → (∀ q ∈ before, (decode q).admitted s.maxRx = false) →
        decode r = i → i.admitted s.maxRx = true → step s = exec i { s with pending := before ++ after }) ∧
    ∀ s : State, s.pending ≠ [] → (∀ q ∈ s.pending, (decode q).admitted s.maxRx = false) →
      step s = .refused .inputTooLong

/-- The host's placing of a table word is a presented request: the next step carries out what the decoder reads from that
word, and everything else stays (log entry 6: the model's own way of presenting one). -/
def Obligations.PlacedWordIsTheNextRequest : Prop :=
  ∀ (s : State) (nbits w : Nat), ∃ i, decodeTableWord nbits w = some i ∧ step (s.withFetchWord nbits w) = exec i s

/-- The model's choice (log entry 7): with no request presented a step changes nothing. 70_reset_and_hazards.md R107 gives
the codec no time in which anything could. -/
def Obligations.IdleStepChangesNothing : Prop :=
  ∀ s : State, s.pending = [] → step s = .next s

/-- 10_state.md R16, R28, 20_memory.md R39: the frame of all four operations. Where one gives a next state, that
state has one more transaction, the request as it was presented with one response; the requests waiting, the
transactions before and MAX_RX are as they were. -/
def Obligations.OperationsChangeOnlyTheRecord : Prop :=
  ∀ (i : Instr) (s t : State), exec i s = .next t →
    t.maxRx = s.maxRx ∧ t.pending = s.pending ∧
      ∃ r, t.transactions = s.transactions ++ [{ request := i, response := r }]

/-- 60_exceptions.md R99, 70_reset_and_hazards.md R108 (its model clause is marked derived), 10_state.md R17: every request
MAX_RX admits is answered, whatever the state; one longer than MAX_RX has no step (D12); and no request ends in a fault.
With the bound written out: a `DECODE` or `SPLIT` of more than MAX_RX bytes is refused, one of at most MAX_RX bytes or
with MAX_RX unbounded is answered, and an `ENCODE` or `BUILD` is always answered. -/
def Obligations.AnsweredExactlyWhenAdmitted : Prop :=
  ∀ (i : Instr) (s : State),
    (i.admitted s.maxRx = true → ∃ r, exec i s = .next (s.answered i r)) ∧
      (i.admitted s.maxRx = false → exec i s = .refused .inputTooLong) ∧
      match i with
      | .encode _ _ _ _ _ _ => ∃ r, exec i s = .next (s.answered i r)
      | .build _ _ _ _ _ _ => ∃ r, exec i s = .next (s.answered i r)
      | .decode buf =>
          (∀ n, s.maxRx = some n → n < buf.length → exec i s = .refused .inputTooLong) ∧
            ((s.maxRx = none ∨ ∃ n, s.maxRx = some n ∧ buf.length ≤ n) → ∃ r, exec i s = .next (s.answered i r))
      | .split buf =>
          (∀ n, s.maxRx = some n → n < buf.length → exec i s = .refused .inputTooLong) ∧
            ((s.maxRx = none ∨ ∃ n, s.maxRx = some n ∧ buf.length ≤ n) → ∃ r, exec i s = .next (s.answered i r))

/-- 41_decoder.md R80, 70_reset_and_hazards.md R105: a response depends on its request alone. The same request answered in
two states, whatever was answered before in either, has the same response in both. -/
def Obligations.ResponseDependsOnRequestAlone : Prop :=
  ∀ (i : Instr) (s s' t t' : State), exec i s = .next t → exec i s' = .next t' →
    ∃ r, t = s.answered i r ∧ t' = s'.answered i r

/-- 60_exceptions.md R88, R84: an encoder request never meets a truncation error and a decoder request never a range error;
a `DECODE` or `SPLIT` error means fewer than six bytes, and an `ENCODE` or `BUILD` error has a failed check. -/
def Obligations.EachOperationHasOneErrorKind : Prop :=
  ∀ (i : Instr) (r : Response) (s : State), exec i s = .next (s.answered i r) →
    match i with
    | .encode _ _ _ _ _ _ => r.status = .success ∨ ∃ cause, r = .errRange cause ∧ cause ≠ 0#4
    | .build _ _ _ _ _ _ => r.status = .success ∨ ∃ cause, r = .errRange cause ∧ cause ≠ 0#4
    | .decode buf => (r.status = .success ∧ 6 ≤ buf.length) ∨ (r = .errTruncHdr ∧ buf.length < 6)
    | .split buf => (r.status = .success ∧ 6 ≤ buf.length) ∨ (r = .errTruncHdr ∧ buf.length < 6)

/-- 30_encoding.md R60, 60_exceptions.md R84 (the codes are the spec's decision D8): every success has status code 0, a
range error 1, a truncated header 2; so 3 is never produced. Reading a code gives the status it stands for, an
observed 3 being a fault (U10). -/
def Obligations.StatusCodeThreeIsNeverProduced : Prop :=
  (∀ r : Response, r.status.code ≠ 3#2 ∧ readStatus r.status.code = .ok r.status) ∧
    (∀ bytes, (Response.okHdr bytes).status.code = 0#2) ∧
    (∀ bytes, (Response.okPkt bytes).status.code = 0#2) ∧
    (∀ h, (Response.okFields h).status.code = 0#2) ∧
    (∀ h payload, (Response.okSplit h payload).status.code = 0#2) ∧
    (∀ cause, (Response.errRange cause).status.code = 1#2) ∧
    (Response.errTruncHdr).status.code = 2#2 ∧
    readStatus 0#2 = .ok .success ∧ readStatus 1#2 = .ok .rangeError ∧ readStatus 2#2 = .ok .truncatedHeader ∧
    readStatus 3#2 = .error .reservedStatus

/-- 60_exceptions.md R86, R99 (D10): an error response has no result. Every result reader faults on every response whose
status is not success, and on a success one of them answers. -/
def Obligations.ErrorResponsesHaveNoResult : Prop :=
  ∀ r : Response,
    (r.status ≠ .success →
      readHeaderBytes r = .error .resultOfErrorResponse ∧ readPacket r = .error .resultOfErrorResponse ∧
        readFields r = .error .resultOfErrorResponse ∧ readPayload r = .error .resultOfErrorResponse) ∧
      (r.status = .success →
        (∃ bytes, readHeaderBytes r = .ok bytes) ∨ (∃ bytes, readPacket r = .ok bytes) ∨
          ∃ h, readFields r = .ok h)

/-! ### Reset, runs and the invariant -/

/-- 70_reset_and_hazards.md R100, R101 (D13; that the record of past transactions stays is the model's choice, log entry 8):
after a reset no request is waiting, and a request presented then is handled as any other: its response is the one
it has in any state. -/
def Obligations.ResetDropsWhatIsUnanswered : Prop :=
  ∀ s : State,
    s.assertReset.pending = [] ∧ s.assertReset.transactions = s.transactions ∧ s.assertReset.maxRx = s.maxRx ∧
      ∀ (r : Request) (x : Response), exec (decode r) s = .next (s.answered (decode r) x) →
        step (s.assertReset.present r) = .next (s.assertReset.answered (decode r) x)

/-- 10_state.md R30, 70_reset_and_hazards.md R100: in the start state no request waits, and the invariant holds. That its
record of transactions is empty is the model's choice (log entry 1), and a claim about the start state only: a reset
asserted later keeps the record (log entry 8). MAX_RX there is the model's choice (log entry 2); the invariant holds
for every legal value. -/
def Obligations.ResetStateIsSafe : Prop :=
  State.reset.pending = [] ∧ State.reset.transactions = [] ∧
    ∀ maxRx, Config.maxRxLegal maxRx = true → State.Inv { State.reset with maxRx := maxRx }

/-- 10_state.md R18, 30_encoding.md R60 to R62, 00_scope.md R8: every step keeps MAX_RX legal and every transaction in the
record one that those rules allow: kind, size and cause of the response, and the received length within MAX_RX. -/
def Obligations.StepKeepsTransactionsLawful : Prop :=
  ∀ s s' : State, s.Inv → step s = .next s' → s'.Inv

/-- 10_state.md R15, R16, R28, 20_memory.md R43: one fixed function of the request alone gives every response, in every
run of any number of steps from any state. Call ready the waiting requests that MAX_RX admits. A run of at most as many
steps as there are ready requests, or of any number where all that wait are ready, answers by that function, each once, as
many ready requests as it has steps (all of them if it has more), whatever longer requests wait among them; the other
ready requests and all the longer ones go on waiting. A longer run, where a request longer than MAX_RX waits, is refused
(R99). The model's choices are that requests are taken oldest first (log entry 16), that the longer ones go on waiting and
a step with nothing else to take is refused (log entry 19), and idle steps (log entry 7). -/
def Obligations.RunAnswersEachRequestByItself : Prop :=
  ∃ f : Instr → Response, ∀ (s : State) (k : Nat),
    let ready := s.pending.filter fun r => (decode r).admitted s.maxRx
    ((k ≤ ready.length ∨ ready.length = s.pending.length) →
      ∃ waiting : List Request, waiting.Sublist s.pending ∧
        (waiting.filter fun r => (decode r).admitted s.maxRx) = ready.drop k ∧
        (waiting.filter fun r => !(decode r).admitted s.maxRx) =
          (s.pending.filter fun r => !(decode r).admitted s.maxRx) ∧
        core.run k s =
          .next { s with
            pending := waiting
            transactions := s.transactions ++
              (ready.take k).map fun r => { request := decode r, response := f (decode r) } }) ∧
      (ready.length < k → ready.length < s.pending.length → core.run k s = .refused .inputTooLong)

/-! ### Bytes and text -/

/-- 00_scope.md R11: a byte written at an offset not beyond the end is read back there, and every other offset reads as
before. -/
def Obligations.ByteWriteIsReadBack : Prop :=
  ∀ (out : ByteSeq) (offset : Nat) (v : Byte), offset ≤ out.length →
    memRead (memWrite out offset v) offset = some v ∧
      ∀ k, k ≠ offset → memRead (memWrite out offset v) k = memRead out k

/-- 30_encoding.md R63 (the syntax is the spec's decision D17; the model's choices where R63 leaves the form of a text open
are log entry 15): the text written for a request, with any operands, reads back as that request. -/
def Obligations.RequestTextReadsBack : Prop :=
  ∀ i : Instr, parseRequest (printRequest i) = .ok i

/-- 30_encoding.md R65 (D16): an `ENCODE` or `BUILD` text without `sf=` stands for the same operation with `sf=UNSEG`. -/
def Obligations.OmittedSequenceFlagsAreUnsegmented : Prop :=
  (∀ type shf apid sc plen,
      parseRequest (printEncode type shf apid none sc plen) =
        .ok (.encode type shf apid .unsegmented sc plen)) ∧
    ∀ type shf apid sc payload,
      parseRequest (printBuild type shf apid none sc payload) =
        .ok (.build type shf apid .unsegmented sc payload)

/-- 30_encoding.md R63, R64 (D17): the requests and responses of 95_test_vectors.md V1, V6 and S6 as the spec writes
them. -/
def Obligations.ExampleTextsAreTheSpecs : Prop :=
  parseRequest "ENCODE type=TC, shf=1, apid=0x001, sf=UNSEG, sc=0, plen=4".toList =
      .ok (.encode .telecommand true 1 .unsegmented 0 4) ∧
    parseRequest "SPLIT buf=18 01 C0 00 00".toList = .ok (.split [0x18, 0x01, 0xC0, 0x00, 0x00]) ∧
    printResponse (.okHdr [0x18, 0x01, 0xC0, 0x00, 0x00, 0x03]) = "OK_HDR 18 01 C0 00 00 03".toList ∧
    printResponse (.okSplit
        { pvn := 0, type := .telecommand, shf := true, apid := 1, sf := .unsegmented, sc := 0, dl := 3 }
        [0x01, 0x02, 0x03, 0x04]) =
      "OK_SPLIT pvn=0 type=1 shf=1 apid=1 sf=3 sc=0 dl=3 payload=01 02 03 04".toList ∧
    printResponse (.errRange 0b0010) = "ERR_RANGE cause=0b0010".toList ∧
    printResponse .errTruncHdr = "ERR_TRUNC_HDR".toList

/-! ### Codes, readers and names, each value by itself -/

/-- 30_encoding.md R51, R52, R53: the code of every Packet Type, of every value of the Sequence Flags and of the Secondary
Header Flag, and the value each code stands for. -/
def Obligations.FieldCodesAreTheSpecs : Prop :=
  (PacketType.telemetry.bit = 0#1 ∧ PacketType.telecommand.bit = 1#1 ∧
      PacketType.ofBit 0#1 = .telemetry ∧ PacketType.ofBit 1#1 = .telecommand) ∧
    (SeqFlags.continuation.bits = 0#2 ∧ SeqFlags.firstSegment.bits = 1#2 ∧ SeqFlags.lastSegment.bits = 2#2 ∧
      SeqFlags.unsegmented.bits = 3#2) ∧
    (SeqFlags.ofBits 0#2 = .continuation ∧ SeqFlags.ofBits 1#2 = .firstSegment ∧ SeqFlags.ofBits 2#2 = .lastSegment ∧
      SeqFlags.ofBits 3#2 = .unsegmented) ∧
    flagBit false = 0#1 ∧ flagBit true = 1#1 ∧ flagOfBit 0#1 = false ∧ flagOfBit 1#1 = true

/-- 10_state.md R18, R21, 30_encoding.md R60: what each reader delivers from each response that carries its output. From
every other success, and for the cause mask from a truncation error, it faults with `noSuchOutput`, which is the model's
reading of R18 and R60 (log entry 13). (What an error response's results read as is `ErrorResponsesHaveNoResult`.) -/
def Obligations.ReadersDeliverWhatAResponseCarries : Prop :=
  (∀ bytes, readHeaderBytes (.okHdr bytes) = .ok bytes ∧ readPacket (.okHdr bytes) = .error .noSuchOutput ∧
      readFields (.okHdr bytes) = .error .noSuchOutput ∧ readPayload (.okHdr bytes) = .error .noSuchOutput ∧
      readCause (.okHdr bytes) = .error .noSuchOutput) ∧
    (∀ bytes, readHeaderBytes (.okPkt bytes) = .error .noSuchOutput ∧ readPacket (.okPkt bytes) = .ok bytes ∧
      readFields (.okPkt bytes) = .error .noSuchOutput ∧ readPayload (.okPkt bytes) = .error .noSuchOutput ∧
      readCause (.okPkt bytes) = .error .noSuchOutput) ∧
    (∀ h, readHeaderBytes (.okFields h) = .error .noSuchOutput ∧ readPacket (.okFields h) = .error .noSuchOutput ∧
      readFields (.okFields h) = .ok h ∧ readPayload (.okFields h) = .error .noSuchOutput ∧
      readCause (.okFields h) = .error .noSuchOutput) ∧
    (∀ h payload, readHeaderBytes (.okSplit h payload) = .error .noSuchOutput ∧
      readPacket (.okSplit h payload) = .error .noSuchOutput ∧ readFields (.okSplit h payload) = .ok h ∧
      readPayload (.okSplit h payload) = .ok payload ∧ readCause (.okSplit h payload) = .error .noSuchOutput) ∧
    (∀ cause, readCause (.errRange cause) = .ok cause) ∧
    readCause .errTruncHdr = .error .noSuchOutput

/-- 30_encoding.md R63, R64 (D17): every name and digit a `type`, `shf` or `sf` operand may have stands for its value, and
a response of each kind that no example above shows is written as R64 has it. -/
def Obligations.TextNamesStandForTheirValues : Prop :=
  (parseType "TM".toList = .ok .telemetry ∧ parseType "0".toList = .ok .telemetry ∧
      parseType "TC".toList = .ok .telecommand ∧ parseType "1".toList = .ok .telecommand) ∧
    (parseFlag "0".toList = .ok false ∧ parseFlag "1".toList = .ok true) ∧
    (parseSeqFlags "CONT".toList = .ok .continuation ∧ parseSeqFlags "0".toList = .ok .continuation ∧
      parseSeqFlags "FIRST".toList = .ok .firstSegment ∧ parseSeqFlags "1".toList = .ok .firstSegment ∧
      parseSeqFlags "LAST".toList = .ok .lastSegment ∧ parseSeqFlags "2".toList = .ok .lastSegment ∧
      parseSeqFlags "UNSEG".toList = .ok .unsegmented ∧ parseSeqFlags "3".toList = .ok .unsegmented) ∧
    printResponse (.okPkt [0x00, 0x00, 0xC0, 0x00, 0x00, 0x00, 0x7E]) = "OK_PKT 00 00 C0 00 00 00 7E".toList ∧
    printResponse (.okFields
        { pvn := 7, type := .telemetry, shf := false, apid := 0, sf := .continuation, sc := 0, dl := 0 }) =
      "OK_FIELDS pvn=7 type=0 shf=0 apid=0 sf=0 sc=0 dl=0".toList

/-! ### Every admitted request -/

/-- 10_state.md R16, 70_reset_and_hazards.md R108: no request waits for ever. The waiting requests that MAX_RX admits are
all answered, with one response each, by a run of as many steps as there are of them, from every state and whatever
requests longer than MAX_RX wait before or among them; those have no step (60_exceptions.md R99) and are all that is left
waiting. No reset is needed. The model's choices are that the new transactions stand in the order in which the requests
waited (log entry 16) and that the longer requests go on waiting (log entry 19). -/
def Obligations.EveryAdmittedRequestIsAnswered : Prop :=
  ∀ s : State,
    let ready := s.pending.filter fun r => (decode r).admitted s.maxRx
    ∃ answers : List Response, answers.length = ready.length ∧
      core.run ready.length s =
        .next { s with
          pending := s.pending.filter fun r => !(decode r).admitted s.maxRx
          transactions := s.transactions ++
            List.zipWith (fun r x => { request := decode r, response := x }) ready answers }
end

