-- ==== Sys2Proof/Laws/Operands.lean ====
section
/-! SUPPORT. The small lemmas of the field codes, the header words and the byte operations. -/

namespace Sys2Proof

@[simp] theorem PacketType.ofBit_bit (t : PacketType) : PacketType.ofBit t.bit = t := by
  cases t <;> rfl

@[simp] theorem PacketType.bit_ofBit : ∀ b : BitVec 1, (PacketType.ofBit b).bit = b := by decide

@[simp] theorem SeqFlags.ofBits_bits (f : SeqFlags) : SeqFlags.ofBits f.bits = f := by
  cases f <;> rfl

@[simp] theorem SeqFlags.bits_ofBits : ∀ b : BitVec 2, (SeqFlags.ofBits b).bits = b := by decide

@[simp] theorem flagOfBit_flagBit (f : Bool) : flagOfBit (flagBit f) = f := by
  cases f <;> rfl

@[simp] theorem flagBit_flagOfBit : ∀ b : BitVec 1, flagBit (flagOfBit b) = b := by decide

@[simp] theorem Op.ofCode_code (op : Op) : Op.ofCode op.code = op := by
  cases op <;> rfl

@[simp] theorem Op.code_ofCode : ∀ c : BitVec 2, (Op.ofCode c).code = c := by decide

namespace Machine

/-- The six header bytes, in offset order. -/
theorem packHeader_eq (h : Header) :
    packHeader h =
      [highByte (headerWord0 h), lowByte (headerWord0 h), highByte (headerWord1 h), lowByte (headerWord1 h),
        highByte (headerWord2 h), lowByte (headerWord2 h)] := rfl

@[simp] theorem packHeader_length (h : Header) : (packHeader h).length = 6 := rfl

/-- A byte write inside the sequence keeps its length; a write at its end makes it one byte longer. -/
theorem memWrite_length (out : ByteSeq) (offset : Nat) (v : Byte) (hle : offset ≤ out.length) :
    (memWrite out offset v).length = max out.length (offset + 1) := by
  simp [memWrite]
  omega

@[simp] theorem memRead_nil (offset : Nat) : memRead [] offset = none := by simp [memRead]

@[simp] theorem memRead_cons_zero (b : Byte) (bs : ByteSeq) : memRead (b :: bs) 0 = some b := rfl

@[simp] theorem memRead_cons_succ (b : Byte) (bs : ByteSeq) (k : Nat) :
    memRead (b :: bs) (k + 1) = memRead bs k := by simp [memRead]

/-- An offset reads a byte exactly when it is below the length (R32). -/
theorem memRead_isSome_iff (bytes : ByteSeq) (k : Nat) : (memRead bytes k).isSome ↔ k < bytes.length := by
  simp [memRead]

/-- Reading past the first sequence of two reads the second. -/
theorem memRead_append_right (a b : ByteSeq) (k : Nat) : memRead (a ++ b) (a.length + k) = memRead b k := by
  simp [memRead, List.getElem?_append_right]

/-- Reading inside the first sequence of two reads it. -/
theorem memRead_append_left (a b : ByteSeq) {k : Nat} (hk : k < a.length) : memRead (a ++ b) k = memRead a k := by
  simp [memRead, List.getElem?_append_left hk]

@[simp] theorem rxAdmits_none (n : Nat) : Config.rxAdmits none n = true := rfl

@[simp] theorem rxAdmits_some_iff (limit n : Nat) : Config.rxAdmits (some limit) n = true ↔ n ≤ limit := by
  simp [Config.rxAdmits]

/-- The lengths MAX_RX admits (R8): every one when it is unbounded, else those up to it. -/
theorem rxAdmits_iff (maxRx : Option Nat) (n : Nat) :
    Config.rxAdmits maxRx n = true ↔ maxRx = none ∨ ∃ limit, maxRx = some limit ∧ n ≤ limit := by
  cases maxRx <;> simp

/-- A sequence of at least six bytes is six bytes and a rest. -/
theorem exists_six_bytes {buf : ByteSeq} (h : 6 ≤ buf.length) :
    ∃ b0 b1 b2 b3 b4 b5 rest, buf = b0 :: b1 :: b2 :: b3 :: b4 :: b5 :: rest := by
  match buf, h with
  | b0 :: b1 :: b2 :: b3 :: b4 :: b5 :: rest, _ => exact ⟨b0, b1, b2, b3, b4, b5, rest, rfl⟩

@[simp] theorem causeApid_iff (apid : Nat) : causeApid apid = true ↔ 2047 < apid := by simp [causeApid]

@[simp] theorem causeSc_iff (sc : Nat) : causeSc sc = true ↔ 16383 < sc := by simp [causeSc]

@[simp] theorem causeLenZero_iff (plen : Nat) : causeLenZero plen = true ↔ plen = 0 := by simp [causeLenZero]

@[simp] theorem causeLenOver_iff (plen : Nat) : causeLenOver plen = true ↔ 65536 < plen := by simp [causeLenOver]

/-- The bits of the cause mask are the four checks (R61). -/
theorem rangeCause_bits (apid sc plen : Nat) :
    (rangeCause apid sc plen).getLsbD 0 = causeApid apid ∧ (rangeCause apid sc plen).getLsbD 1 = causeSc sc ∧
      (rangeCause apid sc plen).getLsbD 2 = causeLenZero plen ∧
      (rangeCause apid sc plen).getLsbD 3 = causeLenOver plen := by
  have hbits : ∀ a b c d : Bool,
      let m := BitVec.ofBool a ++ BitVec.ofBool b ++ BitVec.ofBool c ++ BitVec.ofBool d
      m.getLsbD 0 = d ∧ m.getLsbD 1 = c ∧ m.getLsbD 2 = b ∧ m.getLsbD 3 = a := by decide
  exact hbits ..

/-- The range checks all pass exactly when the operands are in range (R69). -/
theorem rangeCause_eq_zero_iff (apid sc plen : Nat) :
    rangeCause apid sc plen = 0#4 ↔ apid ≤ 2047 ∧ sc ≤ 16383 ∧ 1 ≤ plen ∧ plen ≤ 65536 := by
  have hbits : ∀ a b c d : Bool,
      BitVec.ofBool a ++ BitVec.ofBool b ++ BitVec.ofBool c ++ BitVec.ofBool d = 0#4 ↔
        a = false ∧ b = false ∧ c = false ∧ d = false := by decide
  rw [rangeCause, hbits]
  simp only [← Bool.not_eq_true, causeApid_iff, causeSc_iff, causeLenZero_iff, causeLenOver_iff]
  omega

end Machine
end Sys2Proof
end

