-- ==== Sys2Proof/Laws/State.lean ====
section
/-! SUPPORT. The field lemmas of State's updates: one per field per update, each true by definition. -/

namespace Sys2Proof.Machine

section Answered
variable (s : State) (i : Instr) (r : Response)

@[simp] theorem State.answered_maxRx : (s.answered i r).maxRx = s.maxRx := rfl
@[simp] theorem State.answered_pending : (s.answered i r).pending = s.pending := rfl
@[simp] theorem State.answered_transactions :
    (s.answered i r).transactions = s.transactions ++ [{ request := i, response := r }] := rfl

end Answered

section Presented
variable (s : State) (r : Request)

@[simp] theorem State.present_maxRx : (s.present r).maxRx = s.maxRx := rfl
@[simp] theorem State.present_pending : (s.present r).pending = s.pending ++ [r] := rfl
@[simp] theorem State.present_transactions : (s.present r).transactions = s.transactions := rfl

@[simp] theorem State.presentNext_maxRx : (s.presentNext r).maxRx = s.maxRx := rfl
@[simp] theorem State.presentNext_pending : (s.presentNext r).pending = r :: s.pending := rfl
@[simp] theorem State.presentNext_transactions : (s.presentNext r).transactions = s.transactions := rfl

end Presented

section FetchWord
variable (s : State) (nbits w : Nat)

@[simp] theorem State.withFetchWord_maxRx : (s.withFetchWord nbits w).maxRx = s.maxRx := rfl
@[simp] theorem State.withFetchWord_pending :
    (s.withFetchWord nbits w).pending = requestOfWord nbits w :: s.pending := rfl
@[simp] theorem State.withFetchWord_transactions :
    (s.withFetchWord nbits w).transactions = s.transactions := rfl

end FetchWord

section AssertReset
variable (s : State)

@[simp] theorem State.assertReset_maxRx : s.assertReset.maxRx = s.maxRx := rfl
@[simp] theorem State.assertReset_pending : s.assertReset.pending = [] := rfl
@[simp] theorem State.assertReset_transactions : s.assertReset.transactions = s.transactions := rfl

end AssertReset

section Reset

@[simp] theorem State.reset_maxRx : State.reset.maxRx = none := rfl
@[simp] theorem State.reset_pending : State.reset.pending = [] := rfl
@[simp] theorem State.reset_transactions : State.reset.transactions = [] := rfl

end Reset

/-- Two answers recorded in one state are the same only for the same request and response. -/
theorem State.answered_inj {s : State} {i j : Instr} {r q : Response} (h : s.answered i r = s.answered j q) :
    i = j ∧ r = q := by
  have ht := congrArg State.transactions h
  simpa using ht

end Sys2Proof.Machine
end

