-- ==== Sys2Proof/Laws/Ops.lean ====
section
/-! SUPPORT. For each shared operation, once, everything it can do. -/

namespace Sys2Proof.Machine

/-- A response ends the transaction with one record, whatever it is. -/
theorem respond_eq_next_iff {i : Instr} {r : Response} {s t : State} :
    respond i r s = .next t ↔ t = s.answered i r := by
  simp [respond, eq_comm]

/-- An error ends the transaction with its error response and nothing else. -/
theorem raiseError_eq_next_iff {i : Instr} {e : CodecError} {s t : State} :
    raiseError i e s = .next t ↔ t = s.answered i e.response :=
  respond_eq_next_iff

/-- An admitted request is taken exactly when it is the first admitted one; the others stay in their order. -/
theorem takeAdmitted_eq_some_iff {maxRx : Option Nat} {waiting others : List Request} {r : Request} :
    takeAdmitted maxRx waiting = some (r, others) ↔
      ∃ before after, waiting = before ++ r :: after ∧ others = before ++ after ∧
        (∀ q ∈ before, (decode q).admitted maxRx = false) ∧ (decode r).admitted maxRx = true := by
  induction waiting generalizing others with
  | nil => simp [takeAdmitted]
  | cons q rest ih =>
    unfold takeAdmitted
    cases hq : (decode q).admitted maxRx with
    | true =>
      rw [if_pos rfl]
      constructor
      · intro h
        cases h
        exact ⟨[], rest, rfl, rfl, by simp, hq⟩
      · rintro ⟨before, after, hw, rfl, hb, _⟩
        cases before with
        | nil => cases hw; rfl
        | cons b before =>
          cases hw
          exact absurd (hb q (by simp)) (by simp [hq])
    | false =>
      rw [if_neg (by simp)]
      constructor
      · intro h
        cases ht : takeAdmitted maxRx rest with
        | none => rw [ht] at h; cases h
        | some found =>
          obtain ⟨x, more⟩ := found
          rw [ht] at h
          cases h
          obtain ⟨before, after, rfl, rfl, hb, hr⟩ := ih.mp ht
          refine ⟨q :: before, after, rfl, rfl, ?_, hr⟩
          intro y hy
          rcases List.mem_cons.mp hy with rfl | hy
          · exact hq
          · exact hb y hy
      · rintro ⟨before, after, hw, rfl, hb, hr⟩
        cases before with
        | nil =>
          cases hw
          rw [hq] at hr
          cases hr
        | cons b before =>
          cases hw
          rw [ih.mpr ⟨before, after, rfl, rfl, fun y hy => hb y (by simp [hy]), hr⟩]
          rfl

/-- None is taken exactly when MAX_RX admits none of them. -/
theorem takeAdmitted_eq_none_iff {maxRx : Option Nat} {waiting : List Request} :
    takeAdmitted maxRx waiting = none ↔ ∀ q ∈ waiting, (decode q).admitted maxRx = false := by
  induction waiting with
  | nil => simp [takeAdmitted]
  | cons q rest ih =>
    unfold takeAdmitted
    cases hq : (decode q).admitted maxRx with
    | true => simp [hq]
    | false =>
      rw [if_neg (by simp)]
      cases ht : takeAdmitted maxRx rest with
      | none => simpa [hq] using ih.mp ht
      | some found =>
        have : ¬∀ x ∈ rest, (decode x).admitted maxRx = false := fun h => by rw [ih.mpr h] at ht; cases ht
        simpa [hq] using this

/-- What a step takes: nothing where nothing waits, the first admitted request, or the first where none is admitted. -/
theorem fetch_cases (s : State) :
    (s.pending = [] ∧ fetch s = none) ∨
      (∃ before r after, s.pending = before ++ r :: after ∧ (∀ q ∈ before, (decode q).admitted s.maxRx = false) ∧
        (decode r).admitted s.maxRx = true ∧ fetch s = some (r, { s with pending := before ++ after })) ∨
      ∃ r rest, s.pending = r :: rest ∧ (∀ q ∈ s.pending, (decode q).admitted s.maxRx = false) ∧
        fetch s = some (r, { s with pending := rest }) := by
  unfold fetch
  cases ht : takeAdmitted s.maxRx s.pending with
  | some found =>
    obtain ⟨r, others⟩ := found
    obtain ⟨before, after, hp, rfl, hb, hr⟩ := takeAdmitted_eq_some_iff.mp ht
    exact .inr (.inl ⟨before, r, after, hp, hb, hr, rfl⟩)
  | none =>
    have hnone := takeAdmitted_eq_none_iff.mp ht
    cases hp : s.pending with
    | nil => exact .inl ⟨rfl, rfl⟩
    | cons r rest => exact .inr (.inr ⟨r, rest, rfl, by rwa [hp] at hnone, rfl⟩)

/-- The first admitted request waiting is the one taken. -/
theorem fetch_admitted {s : State} {before after : List Request} {r : Request} (hp : s.pending = before ++ r :: after)
    (hb : ∀ q ∈ before, (decode q).admitted s.maxRx = false) (hr : (decode r).admitted s.maxRx = true) :
    fetch s = some (r, { s with pending := before ++ after }) := by
  unfold fetch
  rw [takeAdmitted_eq_some_iff.mpr ⟨before, after, hp, rfl, hb, hr⟩]

/-- What `ENCODE` answers, as a function of its operands: the bytes of the packed header or the failed checks. -/
theorem encodeHeader_cases (type : PacketType) (shf : Bool) (apid : Nat) (sf : SeqFlags) (sc plen : Nat) :
    ((apid ≤ 2047 ∧ sc ≤ 16383 ∧ 1 ≤ plen ∧ plen ≤ 65536) ∧
        encodeHeader type shf apid sf sc plen = .ok (packHeader (encoderHeader type shf apid sf sc plen))) ∨
      (¬(apid ≤ 2047 ∧ sc ≤ 16383 ∧ 1 ≤ plen ∧ plen ≤ 65536) ∧
        encodeHeader type shf apid sf sc plen = .error (.range (rangeCause apid sc plen))) := by
  unfold encodeHeader
  by_cases h : rangeCause apid sc plen = 0#4
  · exact .inl ⟨(rangeCause_eq_zero_iff ..).mp h, if_pos h⟩
  · exact .inr ⟨fun hr => h ((rangeCause_eq_zero_iff ..).mpr hr), if_neg h⟩

/-- What `BUILD` answers, in terms of `ENCODE`. -/
theorem buildPacket_eq (type : PacketType) (shf : Bool) (apid : Nat) (sf : SeqFlags) (sc : Nat) (payload : ByteSeq) :
    buildPacket type shf apid sf sc payload =
      (encodeHeader type shf apid sf sc payload.length).map (· ++ payload) := by
  unfold buildPacket
  cases encodeHeader type shf apid sf sc payload.length <;> rfl

/-- `DECODE` of six bytes or more reads the first six. -/
@[simp] theorem decodeHeader_six (b0 b1 b2 b3 b4 b5 : Byte) (rest : ByteSeq) :
    decodeHeader (b0 :: b1 :: b2 :: b3 :: b4 :: b5 :: rest) = .ok (unpackHeader b0 b1 b2 b3 b4 b5) := rfl

/-- `DECODE` of fewer than six bytes is the truncation error. -/
theorem decodeHeader_short {buf : ByteSeq} (h : buf.length < 6) : decodeHeader buf = .error .truncatedHeader := by
  match buf, h with
  | [], _ | [_], _ | [_, _], _ | [_, _, _], _ | [_, _, _, _], _ | [_, _, _, _, _], _ => rfl

/-- What `DECODE` answers: the error exactly below six bytes. -/
theorem decodeHeader_cases (buf : ByteSeq) :
    (buf.length < 6 ∧ decodeHeader buf = .error .truncatedHeader) ∨
      ∃ b0 b1 b2 b3 b4 b5 rest, buf = b0 :: b1 :: b2 :: b3 :: b4 :: b5 :: rest ∧
        decodeHeader buf = .ok (unpackHeader b0 b1 b2 b3 b4 b5) := by
  by_cases h : buf.length < 6
  · exact .inl ⟨h, decodeHeader_short h⟩
  · obtain ⟨b0, b1, b2, b3, b4, b5, rest, rfl⟩ := exists_six_bytes (Nat.le_of_not_lt h)
    exact .inr ⟨b0, b1, b2, b3, b4, b5, rest, rfl, rfl⟩

/-- What `SPLIT` answers, in terms of `DECODE`. -/
theorem splitPacket_eq (buf : ByteSeq) :
    splitPacket buf = (decodeHeader buf).map (fun h => (h, buf.drop 6)) := by
  unfold splitPacket
  cases decodeHeader buf <;> rfl

end Sys2Proof.Machine
end

