-- ==== Sys2Proof/Laws/Exec.lean ====
section
/-! SUPPORT. For each operation and for the step, once, everything it can do. -/

namespace Sys2Proof.Machine

/-- An `ENCODE` ends in one answer: its header, or its error. -/
theorem execEncode_cases (type : PacketType) (shf : Bool) (apid : Nat) (sf : SeqFlags) (sc plen : Nat) (s : State) :
    (∃ hdr, encodeHeader type shf apid sf sc plen = .ok hdr ∧
        execEncode type shf apid sf sc plen s =
          .next (s.answered (.encode type shf apid sf sc plen) (.okHdr hdr))) ∨
      ∃ e, encodeHeader type shf apid sf sc plen = .error e ∧
        execEncode type shf apid sf sc plen s =
          .next (s.answered (.encode type shf apid sf sc plen) e.response) := by
  unfold execEncode
  cases encodeHeader type shf apid sf sc plen with
  | ok hdr => exact .inl ⟨hdr, rfl, rfl⟩
  | error e => exact .inr ⟨e, rfl, rfl⟩

/-- A `BUILD` ends in one answer: its packet, or its error. -/
theorem execBuild_cases (type : PacketType) (shf : Bool) (apid : Nat) (sf : SeqFlags) (sc : Nat) (payload : ByteSeq)
    (s : State) :
    (∃ hdr, encodeHeader type shf apid sf sc payload.length = .ok hdr ∧
        execBuild type shf apid sf sc payload s =
          .next (s.answered (.build type shf apid sf sc payload) (.okPkt (hdr ++ payload)))) ∨
      ∃ e, encodeHeader type shf apid sf sc payload.length = .error e ∧
        execBuild type shf apid sf sc payload s =
          .next (s.answered (.build type shf apid sf sc payload) e.response) := by
  unfold execBuild
  rw [buildPacket_eq]
  cases encodeHeader type shf apid sf sc payload.length with
  | ok hdr => exact .inl ⟨hdr, rfl, rfl⟩
  | error e => exact .inr ⟨e, rfl, rfl⟩

/-- A `DECODE` is refused beyond MAX_RX, and else ends in one answer: its fields, or its error. -/
theorem execDecode_cases (buf : ByteSeq) (s : State) :
    (Config.rxAdmits s.maxRx buf.length = false ∧ execDecode buf s = .refused .inputTooLong) ∨
      (∃ h, Config.rxAdmits s.maxRx buf.length = true ∧ decodeHeader buf = .ok h ∧
        execDecode buf s = .next (s.answered (.decode buf) (.okFields h))) ∨
      ∃ e, Config.rxAdmits s.maxRx buf.length = true ∧ decodeHeader buf = .error e ∧
        execDecode buf s = .next (s.answered (.decode buf) e.response) := by
  unfold execDecode
  cases Config.rxAdmits s.maxRx buf.length with
  | false => exact .inl ⟨rfl, rfl⟩
  | true =>
    cases decodeHeader buf with
    | ok h => exact .inr (.inl ⟨h, rfl, rfl, rfl⟩)
    | error e => exact .inr (.inr ⟨e, rfl, rfl, rfl⟩)

/-- A `SPLIT` is refused beyond MAX_RX, and else ends in one answer: its fields and payload, or its error. -/
theorem execSplit_cases (buf : ByteSeq) (s : State) :
    (Config.rxAdmits s.maxRx buf.length = false ∧ execSplit buf s = .refused .inputTooLong) ∨
      (∃ h, Config.rxAdmits s.maxRx buf.length = true ∧ decodeHeader buf = .ok h ∧
        execSplit buf s = .next (s.answered (.split buf) (.okSplit h (buf.drop 6)))) ∨
      ∃ e, Config.rxAdmits s.maxRx buf.length = true ∧ decodeHeader buf = .error e ∧
        execSplit buf s = .next (s.answered (.split buf) e.response) := by
  unfold execSplit
  rw [splitPacket_eq]
  cases Config.rxAdmits s.maxRx buf.length with
  | false => exact .inl ⟨rfl, rfl⟩
  | true =>
    cases decodeHeader buf with
    | ok h => exact .inr (.inl ⟨h, rfl, rfl, rfl⟩)
    | error e => exact .inr (.inr ⟨e, rfl, rfl, rfl⟩)

/-- A request longer than MAX_RX is refused. -/
theorem exec_refused_of_not_admitted {i : Instr} {s : State} (h : i.admitted s.maxRx = false) :
    exec i s = .refused .inputTooLong := by
  cases i with
  | encode => cases h
  | build => cases h
  | decode buf =>
    rcases execDecode_cases buf s with ⟨_, hx⟩ | ⟨_, ha, _⟩ | ⟨_, ha, _⟩
    · exact hx
    · exact absurd (ha.symm.trans h) (by decide)
    · exact absurd (ha.symm.trans h) (by decide)
  | split buf =>
    rcases execSplit_cases buf s with ⟨_, hx⟩ | ⟨_, ha, _⟩ | ⟨_, ha, _⟩
    · exact hx
    · exact absurd (ha.symm.trans h) (by decide)
    · exact absurd (ha.symm.trans h) (by decide)

/-- A step is idle with nothing presented, carries out the first request MAX_RX admits where one waits, and is refused
where only requests longer than MAX_RX wait. -/
theorem step_cases (s : State) :
    (s.pending = [] ∧ step s = .next s) ∨
      (∃ before r after, s.pending = before ++ r :: after ∧ (∀ q ∈ before, (decode q).admitted s.maxRx = false) ∧
        (decode r).admitted s.maxRx = true ∧ step s = exec (decode r) { s with pending := before ++ after }) ∨
      (s.pending ≠ [] ∧ (∀ q ∈ s.pending, (decode q).admitted s.maxRx = false) ∧
        step s = .refused .inputTooLong) := by
  unfold step
  rcases fetch_cases s with ⟨hp, hf⟩ | ⟨before, r, after, hp, hb, hr, hf⟩ | ⟨r, rest, hp, hnone, hf⟩
  · exact .inl ⟨hp, by rw [hf]⟩
  · exact .inr (.inl ⟨before, r, after, hp, hb, hr, by rw [hf]⟩)
  · refine .inr (.inr ⟨by simp [hp], hnone, ?_⟩)
    rw [hf]
    exact exec_refused_of_not_admitted (hnone r (by simp [hp]))

/-- A run of one more step begins with the step, on any machine. -/
theorem run_succ_of_step (M : Host.Core) (k : Nat) {s t : M.State} (h : M.step s = .next t) :
    M.run (k + 1) s = M.run k t := by
  rw [Host.Core.run, h]

/-- A run whose first step is refused is refused, on any machine. -/
theorem run_succ_of_refused (M : Host.Core) (k : Nat) {s : M.State} {r : M.Refusal} (h : M.step s = .refused r) :
    M.run (k + 1) s = .refused r := by
  rw [Host.Core.run, h]

/-- A run of the codec whose first step is refused is refused. -/
theorem core_run_refused (k : Nat) {s : State} {r : Refusal} (h : step s = .refused r) :
    core.run (k + 1) s = .refused r :=
  run_succ_of_refused core k h

/-- A run of the codec of one more step begins with the step. -/
theorem core_run_succ (k : Nat) {s t : State} (h : step s = .next t) : core.run (k + 1) s = core.run k t :=
  run_succ_of_step core k h

end Sys2Proof.Machine
end

