-- ==== Sys2Proof/Laws/PerInstr.lean ====
section
/-! SUPPORT. A statement about every operation as syntax, one lemma per constructor. -/

namespace Sys2Proof.Laws

/-- The select code a request's ports carry is the opcode table's for its operation: as a table word it decodes to an
instruction of the same operation, at every operand width of whole bytes. -/
def SelectCode.Statement (i : Instr) : Prop :=
  ∀ n : Nat, (decodeTableWord (8 * (n + 1)) (encode i).op.toNat).map Instr.op = some i.op

/-- A two-bit number is its own remainder modulo the number of words of one byte or more. -/
theorem SelectCode.small_mod (n : Nat) (c : BitVec 2) : c.toNat % 2 ^ (8 * (n + 1)) = c.toNat := by
  apply Nat.mod_eq_of_lt
  have h1 : c.toNat < 2 ^ 2 := c.isLt
  have h2 : 2 ^ 2 ≤ 2 ^ (8 * (n + 1)) := Nat.pow_le_pow_right (by decide) (by omega)
  omega

/-- The operation selected by a request's own select code. -/
theorem SelectCode.of_code (n : Nat) (op : Op) :
    (decodeTableWord (8 * (n + 1)) op.code.toNat).map Instr.op = some op := by
  unfold decodeTableWord requestOfWord
  rw [SelectCode.small_mod]
  cases op <;> rfl

theorem SelectCode.encode (type : PacketType) (shf : Bool) (apid : Nat) (sf : SeqFlags) (sc plen : Nat) :
    SelectCode.Statement (.encode type shf apid sf sc plen) := fun n => SelectCode.of_code n .encode

theorem SelectCode.decode (buf : ByteSeq) : SelectCode.Statement (.decode buf) := fun n => SelectCode.of_code n .decode

theorem SelectCode.build (type : PacketType) (shf : Bool) (apid : Nat) (sf : SeqFlags) (sc : Nat)
    (payload : ByteSeq) : SelectCode.Statement (.build type shf apid sf sc payload) :=
  fun n => SelectCode.of_code n .build

theorem SelectCode.split (buf : ByteSeq) : SelectCode.Statement (.split buf) := fun n => SelectCode.of_code n .split

end Sys2Proof.Laws
end

