-- ==== Sys2Proof/Laws/Text.lean ====
section
/-! SUPPORT. The parts of the textual syntax: numbers and bytes read back as written, a text splits at its separators. -/

namespace Sys2Proof.Machine

/-! ### Digits -/

/-- The decimal digits have their values. -/
theorem digitValue_hexDigit_ten : ∀ d < 10, digitValue 10 (hexDigit d) = some d := by decide

/-- The hexadecimal digits have their values. -/
theorem digitValue_hexDigit_sixteen : ∀ d < 16, digitValue 16 (hexDigit d) = some d := by decide

/-- A digit is none of the characters the syntax uses between its parts. -/
theorem hexDigit_ne : ∀ d < 16, hexDigit d ≠ ' ' ∧ hexDigit d ≠ ',' ∧ hexDigit d ≠ '=' ∧ hexDigit d ≠ 'x' ∧
    hexDigit d ≠ '[' := by decide

/-- Reading digits in two parts. -/
theorem parseDigitsFrom_append (base acc : Nat) (a b : Text) :
    parseDigitsFrom base acc (a ++ b) = (parseDigitsFrom base acc a).bind (fun n => parseDigitsFrom base n b) := by
  induction a generalizing acc with
  | nil => rfl
  | cons c a ih =>
    simp only [List.cons_append, parseDigitsFrom]
    cases digitValue base c with
    | none => rfl
    | some d => exact ih _

/-- Every character of a number's text is a decimal digit. -/
theorem mem_decimalDigits {fuel n : Nat} {c : Char} (h : c ∈ decimalDigits fuel n) : ∃ d < 10, c = hexDigit d := by
  induction fuel generalizing n with
  | zero => cases h
  | succ fuel ih =>
    unfold decimalDigits at h
    split at h
    · rename_i hn
      exact ⟨n, hn, by simpa using h⟩
    · rcases List.mem_cons.mp h with h | h
      · exact ⟨n % 10, Nat.mod_lt _ (by decide), h⟩
      · exact ih h

theorem mem_printNumber {n : Nat} {c : Char} (h : c ∈ printNumber n) : ∃ d < 10, c = hexDigit d :=
  mem_decimalDigits (List.mem_reverse.mp h)

theorem printNumber_ne_nil (n : Nat) : printNumber n ≠ [] := by
  simp only [printNumber, ne_eq, List.reverse_eq_nil_iff]
  unfold decimalDigits
  split <;> simp

/-- The digits of a number, most significant first, read back as that number. -/
theorem parseDigitsFrom_decimalDigits (fuel n : Nat) (h : n < fuel) :
    parseDigitsFrom 10 0 (decimalDigits fuel n).reverse = some n := by
  induction fuel generalizing n with
  | zero => omega
  | succ fuel ih =>
    unfold decimalDigits
    split
    · rename_i hn
      simp [parseDigitsFrom, digitValue_hexDigit_ten n hn]
    · rename_i hn
      rw [List.reverse_cons, parseDigitsFrom_append, ih (n / 10) (by omega)]
      simp only [Option.bind_some, parseDigitsFrom, digitValue_hexDigit_ten _ (Nat.mod_lt n (by decide : 0 < 10))]
      congr 1
      omega

/-- A number reads back as it was written (R63). -/
theorem parseNumber_printNumber (n : Nat) : parseNumber (printNumber n) = .ok n := by
  have hd : parseDigits 10 (printNumber n) = some n := by
    have h := parseDigitsFrom_decimalDigits (n + 1) n (Nat.lt_succ_self n)
    have hne := printNumber_ne_nil n
    unfold printNumber at *
    cases hc : (decimalDigits (n + 1) n).reverse with
    | nil => exact absurd hc hne
    | cons c cs => rw [hc] at h; exact h
  unfold parseNumber
  split
  · rename_i rest heq
    obtain ⟨d, hlt, hx⟩ := mem_printNumber (n := n) (c := 'x') (by rw [heq]; simp)
    exact absurd hx.symm (hexDigit_ne d (by omega)).2.2.2.1
  · rw [hd]

/-! ### Bytes -/

/-- A pair of digits read before the rest. -/
theorem parseBytePairs_printByte (b : Byte) (cs : Text) :
    parseBytePairs (printByte b ++ cs) = (parseBytePairs cs).map (b :: ·) := by
  have hb : b.toNat < 256 := b.isLt
  have h1 := digitValue_hexDigit_sixteen (b.toNat / 16) (by omega)
  have h2 := digitValue_hexDigit_sixteen (b.toNat % 16) (by omega)
  have hsp := (hexDigit_ne (b.toNat / 16) (by omega)).1
  have hval : BitVec.ofNat 8 (16 * (b.toNat / 16) + b.toNat % 16) = b := by
    rw [Nat.div_add_mod]
    simp
  simp only [printByte, List.cons_append, List.nil_append]
  rw [parseBytePairs]
  · rw [h1, h2]
    cases parseBytePairs cs with
    | none => rfl
    | some bs => exact congrArg (fun x => some (x :: bs)) hval
  · exact fun h => hsp h

/-- The bytes after the first read back. -/
theorem parseBytePairs_printMoreBytes (bs : ByteSeq) : parseBytePairs (printMoreBytes bs) = some bs := by
  induction bs with
  | nil => rfl
  | cons b bs ih =>
    simp only [printMoreBytes, List.cons_append, parseBytePairs, parseBytePairs_printByte, ih, Option.map_some]

/-- A byte sequence reads back as it was written (R63). -/
theorem parseBytes_printBytes (bs : ByteSeq) : parseBytes (printBytes bs) = .ok bs := by
  cases bs with
  | nil => rfl
  | cons b bs =>
    have hne : printBytes (b :: bs) ≠ "[]".toList := by
      intro h
      have h0 : hexDigit (b.toNat / 16) = '[' := by
        simpa [printBytes, printByte] using congrArg List.head? h
      have hb : b.toNat < 256 := b.isLt
      exact (hexDigit_ne (b.toNat / 16) (by omega)).2.2.2.2 h0
    unfold parseBytes
    rw [if_neg hne, printBytes, parseBytePairs_printByte, parseBytePairs_printMoreBytes]
    rfl

/-! ### Separators -/

/-- A text without the separator is one piece. -/
theorem splitAtChar_of_not_mem {sep : Char} {a : Text} (h : sep ∉ a) : splitAtChar sep a = [a] := by
  induction a with
  | nil => rfl
  | cons c a ih =>
    rw [List.mem_cons, not_or] at h
    rw [splitAtChar, if_neg (fun e => h.1 e.symm), ih h.2]

/-- A text splits at its first separator. -/
theorem splitAtChar_append {sep : Char} {a : Text} (h : sep ∉ a) (b : Text) :
    splitAtChar sep (a ++ sep :: b) = a :: splitAtChar sep b := by
  induction a with
  | nil => simp [splitAtChar]
  | cons c a ih =>
    rw [List.mem_cons, not_or] at h
    rw [List.cons_append, splitAtChar, if_neg (fun e => h.1 e.symm), ih h.2]

/-! ### Operands -/

/-- A text with no space at either end. -/
def Trimmed (v : Text) : Prop := v.head? ≠ some ' ' ∧ v.getLast? ≠ some ' '

/-- An operand the syntax can carry: a key of letters and a value that is not empty, has no comma and no space at
either end. -/
structure CleanOperand (operand : Text × Text) : Prop where
  key_ne : operand.1 ≠ []
  key_plain : ∀ c ∈ operand.1, c ≠ '=' ∧ c ≠ ' ' ∧ c ≠ ','
  value_ne : operand.2 ≠ []
  value_no_comma : ',' ∉ operand.2
  value_last : operand.2.getLast? ≠ some ' '

theorem dropWhile_space_of_head {v : Text} (h : v.head? ≠ some ' ') : v.dropWhile (· == ' ') = v := by
  cases v with
  | nil => rfl
  | cons c v => exact List.dropWhile_cons_of_neg (by simpa using h)

/-- A trimmed text is left as it is. -/
theorem trimSpaces_of_trimmed {v : Text} (h : Trimmed v) : trimSpaces v = v := by
  unfold trimSpaces
  rw [dropWhile_space_of_head h.1, dropWhile_space_of_head (by rw [List.head?_reverse]; exact h.2),
    List.reverse_reverse]

/-- One space before a trimmed text is dropped. -/
theorem trimSpaces_space_cons {v : Text} (h : Trimmed v) : trimSpaces (' ' :: v) = v := by
  rw [← trimSpaces_of_trimmed h]
  unfold trimSpaces
  rw [List.dropWhile_cons_of_pos (by decide), dropWhile_space_of_head h.1,
    dropWhile_space_of_head (v := v.reverse) (by rw [List.head?_reverse]; exact h.2), List.reverse_reverse,
    dropWhile_space_of_head h.1, dropWhile_space_of_head (v := v.reverse) (by rw [List.head?_reverse]; exact h.2),
    List.reverse_reverse]

/-- A text divides at the first of a character it begins without. -/
theorem span_before {stop : Char} {a : Text} (h : ∀ c ∈ a, c ≠ stop) (b : Text) :
    (a ++ stop :: b).takeWhile (· != stop) = a ∧ (a ++ stop :: b).dropWhile (· != stop) = stop :: b := by
  induction a with
  | nil => simp
  | cons c a ih =>
    have hc := h c (by simp)
    obtain ⟨ht, hd⟩ := ih (fun c hc => h c (by simp [hc]))
    simp [hc, ht, hd]

/-- An operand reads back as it was written. -/
theorem parseOperand_printOperand {operand : Text × Text} (h : CleanOperand operand) :
    parseOperand (printOperand operand) = operand := by
  have htrim : Trimmed (operand.1 ++ '=' :: operand.2) := by
    constructor
    · obtain ⟨c, k, hk⟩ := List.exists_cons_of_ne_nil h.key_ne
      have := (h.key_plain c (by simp [hk])).2.1
      simpa [hk] using this
    · rw [List.getLast?_append_of_ne_nil _ (by simp), List.getLast?_cons_of_ne_nil h.value_ne]
      exact h.value_last
  obtain ⟨ht, hd⟩ := span_before (stop := '=') (fun c hc => (h.key_plain c hc).1) operand.2
  unfold parseOperand printOperand
  rw [trimSpaces_space_cons htrim, ht, hd]
  rfl

/-- The operands of a request read back as they were written. -/
theorem parseOperands_printOperands (operands : List (Text × Text)) (hne : operands ≠ [])
    (h : ∀ o ∈ operands, CleanOperand o) : parseOperands (printOperands operands) = operands := by
  have hpiece : ∀ o : Text × Text, CleanOperand o → ',' ∉ printOperand o := by
    intro o ho
    have hkey : ',' ∉ o.1 := fun hm => (ho.key_plain _ hm).2.2 rfl
    simp [printOperand, hkey, ho.value_no_comma]
  induction operands with
  | nil => exact absurd rfl hne
  | cons o more ih =>
    have ho := h o (by simp)
    cases more with
    | nil =>
      simp only [printOperands, parseOperands]
      rw [splitAtChar_of_not_mem (hpiece o ho), List.map, parseOperand_printOperand ho, List.map]
    | cons o' more =>
      simp only [printOperands, parseOperands]
      rw [splitAtChar_append (hpiece o ho), List.map, parseOperand_printOperand ho]
      exact congrArg (o :: ·) (ih (by simp) (fun x hx => h x (by simp [hx])))

end Sys2Proof.Machine
end

