-- ==== Sys2Proof/Tests/Slice0.lean ====
section
/-! SUPPORT. Small tests, their expected values taken from spec/95_test_vectors.md or computed by hand from
30_encoding.md, and for each claim with hypotheses a state and operands that meet them. -/

namespace Sys2Proof.Tests

open Sys2Proof.Machine

/-- A state with nothing presented and nothing done. -/
def idle (maxRx : Option Nat) : State := { maxRx := maxRx, pending := [], transactions := [] }

/-- The response the last transaction of a next state records. -/
def responseOf (o : Host.Outcome State Fault Refusal) : Option Response :=
  match o with
  | .next s => (s.transactions.getLast?).map (·.response)
  | .fault _ => none
  | .refused _ => none

/-! ### Well-formedness refuses -/

theorem test_wide_apid_refused :
    (Instr.encode .telemetry false 65536 .unsegmented 0 1).wellFormed .default none = false := by decide

theorem test_wide_sc_refused :
    (Instr.encode .telemetry false 0 .unsegmented 65536 1).wellFormed .default none = false := by decide

theorem test_wide_plen_refused :
    (Instr.encode .telemetry false 0 .unsegmented 0 4294967296).wellFormed .default none = false := by decide

theorem test_wide_build_apid_refused :
    (Instr.build .telemetry false 65536 .unsegmented 0 [0x7E]).wellFormed .default none = false := by decide

theorem test_wide_build_sc_refused :
    (Instr.build .telemetry false 0 .unsegmented 65536 [0x7E]).wellFormed .default none = false := by decide

theorem test_long_decode_refused :
    (Instr.decode [0, 0, 0, 0, 0, 0, 0]).wellFormed .default (some 6) = false := by decide

theorem test_long_split_refused :
    (Instr.split [0, 0, 0, 0, 0, 0, 0]).wellFormed .default (some 6) = false := by decide

theorem test_boundary_encode_accepted :
    (Instr.encode .telemetry false 65535 .unsegmented 65535 4294967295).wellFormed .default none = true := by decide

theorem test_six_byte_decode_accepted : (Instr.decode [0, 0, 0, 0, 0, 0]).wellFormed .default (some 6) = true := by
  decide

theorem test_narrow_ports_refused :
    (Config.PortWidths.mk 11 15 17).legal = false ∧ (Config.PortWidths.mk 12 14 17).legal = false ∧
      (Config.PortWidths.mk 12 15 16).legal = false := by decide

theorem test_small_max_rx_refused : Config.maxRxLegal (some 5) = false := by decide

/-! ### Select codes and headers written out bit by bit (R48, R58) -/

theorem test_decode_select_encode :
    decodeTableWord 8 0b00 = some (.encode .telemetry false 0 .continuation 0 0) := by decide

theorem test_decode_select_decode : decodeTableWord 8 0b01 = some (.decode []) := by decide

theorem test_decode_select_build :
    decodeTableWord 8 0b10 = some (.build .telemetry false 0 .continuation 0 []) := by decide

theorem test_decode_select_split : decodeTableWord 8 0b11 = some (.split []) := by decide

/-- The ports of `ENCODE type=TC, shf=1, apid=1, sf=LAST, sc=0, plen=4`, by the codes of R51 to R53 and R58. -/
theorem test_decode_encode_ports :
    decode { op := 0b00, type := 1, shf := 1, apid := 1, sf := 0b10, sc := 0, plen := 4, payload := [9], buf := [9] } =
      .encode .telecommand true 1 .lastSegment 0 4 := by decide

theorem test_decode_build_ports :
    decode { op := 0b10, type := 0, shf := 0, apid := 5, sf := 0b01, sc := 9, plen := 4, payload := [7], buf := [9] } =
      .build .telemetry false 5 .firstSegment 9 [7] := by decide

/-- E9 and D7: `0001 0001 0010 0011 1100 0100 0101 0110 0000 1111 1111 1111`. -/
theorem test_header_bits :
    packHeader
        { pvn := 0b000, type := .telecommand, shf := false, apid := 0b00100100011, sf := .unsegmented,
          sc := 0b00010001010110, dl := 0b0000111111111111 } =
      [0b00010001, 0b00100011, 0b11000100, 0b01010110, 0b00001111, 0b11111111] := by decide

/-! ### One transaction each (95_test_vectors.md, the number in the name) -/

theorem test_encode_e2 :
    responseOf (exec (.encode .telecommand true 2047 .unsegmented 16383 65536) (idle none)) =
      some (.okHdr [0x1F, 0xFF, 0xFF, 0xFF, 0xFF, 0xFF]) := by decide

theorem test_encode_e17 :
    responseOf (exec (.encode .telecommand true 0xFFFF .unsegmented 0xFFFF 0xFFFFFFFF) (idle none)) =
      some (.errRange 0b1011) := by decide

theorem test_build_b6 :
    responseOf (exec (.build .telemetry false 0x7FF .continuation 0 [0x18, 0x01, 0xC0, 0x00, 0x00, 0x03]) (idle none)) =
      some (.okPkt [0x07, 0xFF, 0x00, 0x00, 0x00, 0x05, 0x18, 0x01, 0xC0, 0x00, 0x00, 0x03]) := by decide

theorem test_build_b7 :
    responseOf (exec (.build .telemetry false 2048 .unsegmented 0 []) (idle none)) = some (.errRange 0b0101) := by
  decide

theorem test_decode_d2 :
    responseOf (exec (.decode [0x18, 0x01, 0xC0, 0x03, 0x01, 0x02, 0x03, 0x04]) (idle none)) =
      some (.okFields
        { pvn := 0, type := .telecommand, shf := true, apid := 1, sf := .unsegmented, sc := 3, dl := 258 }) := by
  decide

theorem test_decode_d3 :
    responseOf (exec (.decode [0x18, 0x01, 0xC0, 0x00, 0x00]) (idle none)) = some .errTruncHdr := by decide

theorem test_split_s2 :
    responseOf (exec (.split [0x18, 0x01, 0xC0, 0x00, 0x00, 0x03]) (idle none)) =
      some (.okSplit { pvn := 0, type := .telecommand, shf := true, apid := 1, sf := .unsegmented, sc := 0, dl := 3 }
        []) := by decide

theorem test_split_s4 :
    responseOf (exec (.split [0x09, 0x00, 0xC3, 0xFF, 0x00, 0x04, 0xAA, 0xBB]) (idle none)) =
      some (.okSplit { pvn := 0, type := .telemetry, shf := true, apid := 256, sf := .unsegmented, sc := 1023, dl := 4 }
        [0xAA, 0xBB]) := by decide

/-- A table word placed after reset runs: `SPLIT` of no bytes is the truncation error (R76). -/
theorem test_placed_word_runs : responseOf (step (State.reset.withFetchWord 8 0b11)) = some .errTruncHdr := by decide

/-- P2, step 1: the text without `sf=` (R65). -/
theorem test_text_without_sf :
    parseRequest "BUILD type=TC, shf=0, apid=0x042, sc=16383, payload=01".toList =
      .ok (.build .telecommand false 0x42 .unsegmented 16383 [0x01]) := by decide

theorem test_text_of_unknown_operation : parseRequest "RESET buf=[]".toList = .error .unknownOperation := by decide

/-! ### The claims' hypotheses are met

For each statement that has hypotheses, a state and operands that meet all of them, at the ends of a range where there
is one. -/

theorem witness_opcodeRows : ∀ row ∈ opcodeTable, 2 ≤ 8 ∧ row.pattern &&& row.mask = row.pattern := by decide

theorem witness_encode_in_range :
    (0 ≤ 2047 ∧ 0 ≤ 16383 ∧ 1 ≤ 1 ∧ 1 ≤ 65536) ∧ (2047 ≤ 2047 ∧ 16383 ≤ 16383 ∧ 1 ≤ 65536 ∧ 65536 ≤ 65536) := by
  decide

theorem witness_encode_out_of_range :
    ¬(2048 ≤ 2047 ∧ 0 ≤ 16383 ∧ 1 ≤ 1 ∧ 1 ≤ 65536) ∧ ¬(0 ≤ 2047 ∧ 16384 ≤ 16383 ∧ 1 ≤ 1 ∧ 1 ≤ 65536) ∧
      ¬(0 ≤ 2047 ∧ 0 ≤ 16383 ∧ 1 ≤ 0 ∧ 0 ≤ 65536) ∧ ¬(0 ≤ 2047 ∧ 0 ≤ 16383 ∧ 1 ≤ 65537 ∧ 65537 ≤ 65536) := by decide

/-- `EncodedLengthIsExact`, `EncodeLosesNoOperandBit`, `EncoderAlwaysWritesVersionZero`, `DecodeInvertsEncode`: E20. -/
theorem witness_encode_succeeds :
    exec (.encode .telemetry false 0 .unsegmented 0 65536) (idle none) =
      .next ((idle none).answered (.encode .telemetry false 0 .unsegmented 0 65536)
        (.okHdr [0x00, 0x00, 0xC0, 0x00, 0xFF, 0xFF])) := by rfl

theorem witness_encode_shortest_succeeds :
    exec (.encode .telemetry false 0 .continuation 0 1) (idle none) =
      .next ((idle none).answered (.encode .telemetry false 0 .continuation 0 1) (.okHdr [0, 0, 0, 0, 0, 0])) := by rfl

theorem witness_lengths_without_code : (0 = 0 ∨ 65536 < 0) ∧ (65537 = 0 ∨ 65536 < 65537) := by decide

theorem witness_build_in_range :
    (2047 ≤ 2047 ∧ 16383 ≤ 16383 ∧ 1 ≤ ([0x7E] : ByteSeq).length ∧ ([0x7E] : ByteSeq).length ≤ 65536) ∧
      (0 ≤ 2047 ∧ 0 ≤ 16383 ∧ 1 ≤ (List.replicate 65536 (0 : Byte)).length ∧
        (List.replicate 65536 (0 : Byte)).length ≤ 65536) := by
  simp only [List.length_replicate]
  decide

theorem witness_build_out_of_range :
    ¬(0 ≤ 2047 ∧ 0 ≤ 16383 ∧ 1 ≤ ([] : ByteSeq).length ∧ ([] : ByteSeq).length ≤ 65536) ∧
      ¬(0 ≤ 2047 ∧ 0 ≤ 16383 ∧ 1 ≤ (List.replicate 65537 (0 : Byte)).length ∧
        (List.replicate 65537 (0 : Byte)).length ≤ 65536) := by
  simp only [List.length_replicate]
  decide

theorem witness_payloads_of_one_length : ([0x01] : ByteSeq).length = ([0xFF] : ByteSeq).length := by decide

/-- `EncoderAlwaysWritesVersionZero`, `BuiltPacketHasItsDeclaredLength`: B2. -/
theorem witness_build_succeeds :
    exec (.build .telemetry false 0 .unsegmented 0 [0x7E]) (idle none) =
      .next ((idle none).answered (.build .telemetry false 0 .unsegmented 0 [0x7E])
        (.okPkt [0x00, 0x00, 0xC0, 0x00, 0x00, 0x00, 0x7E])) := by rfl

theorem witness_causeMasks :
    0b1011#4 ≠ 0#4 ∧ ¬((0b1011#4).getLsbD 2 = true ∧ (0b1011#4).getLsbD 3 = true) := by decide

theorem witness_legal_ports : (Config.PortWidths.mk 12 15 17).legal = true ∧ 2048 ≤ 2048 ∧ 16384 ≤ 16384 ∧
    65537 ≤ 65537 := by decide

theorem witness_decode_short :
    Config.rxAdmits (idle (some 6)).maxRx ([0, 0, 0, 0, 0] : ByteSeq).length = true ∧
      ([0, 0, 0, 0, 0] : ByteSeq).length < 6 ∧
      Config.rxAdmits (idle none).maxRx ([] : ByteSeq).length = true ∧ ([] : ByteSeq).length < 6 := by decide

theorem witness_decode_long_enough :
    Config.rxAdmits (idle (some 6)).maxRx ([0, 0, 0, 0, 0, 0] : ByteSeq).length = true ∧
      6 ≤ ([0, 0, 0, 0, 0, 0] : ByteSeq).length := by decide

/-- `TruncatedPayloadIsTheCallersToSee`: S4, a truncated payload. -/
theorem witness_truncated_payload :
    Config.rxAdmits (idle none).maxRx ([0x09, 0x00, 0xC3, 0xFF, 0x00, 0x04, 0xAA, 0xBB] : ByteSeq).length = true ∧
      memRead [0x09, 0x00, 0xC3, 0xFF, 0x00, 0x04, 0xAA, 0xBB] 4 = some 0x00 ∧
      memRead [0x09, 0x00, 0xC3, 0xFF, 0x00, 0x04, 0xAA, 0xBB] 5 = some 0x04 := by decide

theorem witness_splitInvertsBuild :
    (2047 ≤ 2047 ∧ 16383 ≤ 16383 ∧ 1 ≤ ([0x7E] : ByteSeq).length ∧ ([0x7E] : ByteSeq).length ≤ 65536 ∧
        Config.rxAdmits (idle (some 7)).maxRx (6 + ([0x7E] : ByteSeq).length) = true) ∧
      (1 ≤ (List.replicate 65536 (0 : Byte)).length ∧ (List.replicate 65536 (0 : Byte)).length ≤ 65536 ∧
        Config.rxAdmits (idle none).maxRx (6 + (List.replicate 65536 (0 : Byte)).length) = true) := by
  simp only [List.length_replicate]
  decide

theorem witness_decodeInvertsEncode :
    exec (.encode .telemetry false 0 .continuation 0 1) (idle none) =
        .next ((idle none).answered (.encode .telemetry false 0 .continuation 0 1) (.okHdr [0, 0, 0, 0, 0, 0])) ∧
      Config.rxAdmits (idle (some 7)).maxRx (([0, 0, 0, 0, 0, 0] : ByteSeq) ++ [0xAA]).length = true :=
  ⟨rfl, rfl⟩

/-- `BuildInvertsSplitUpToLength`: seven bytes whose header declares four payload bytes. -/
theorem witness_buildInvertsSplit :
    7 ≤ ([0x18, 0x01, 0xC0, 0x00, 0x00, 0x03, 0xAA] : ByteSeq).length ∧
      exec (.split [0x18, 0x01, 0xC0, 0x00, 0x00, 0x03, 0xAA]) (idle none) =
        .next ((idle none).answered (.split [0x18, 0x01, 0xC0, 0x00, 0x00, 0x03, 0xAA])
          (.okSplit { pvn := 0, type := .telecommand, shf := true, apid := 1, sf := .unsegmented, sc := 0, dl := 3 }
            [0xAA])) ∧
      (0#3 = 0#3) ∧ ([0xAA] : ByteSeq).length ≤ 65536 :=
  ⟨by decide, rfl, rfl, by decide⟩

/-- A request longer than MAX_RX between two that MAX_RX = 6 admits. -/
def mixed : State :=
  { idle (some 6) with pending := [Request.bare 0b00, encode (.split [0, 0, 0, 0, 0, 0, 0]), Request.bare 0b11] }

/-- Only a request longer than MAX_RX waits. -/
def overLongOnly : State := { idle (some 6) with pending := [encode (.decode [0, 0, 0, 0, 0, 0, 0])] }

/-- R16, R99, R108: the request behind an over-long one is answered by the next step. -/
theorem test_step_passes_over_long_request :
    responseOf (step { mixed with pending := mixed.pending.drop 1 }) = some .errTruncHdr := by decide

/-- `StepCarriesOutTheOldestRequest`: with nothing before the request taken, with an over-long one before it, and with
over-long ones only. -/
theorem witness_step_carries_out :
    (mixed.pending = [] ++ Request.bare 0b00 :: mixed.pending.drop 1 ∧
        (decode (Request.bare 0b00)).admitted mixed.maxRx = true) ∧
      (mixed.pending.drop 1 = [encode (.split [0, 0, 0, 0, 0, 0, 0])] ++ Request.bare 0b11 :: [] ∧
        (∀ q ∈ [encode (.split [0, 0, 0, 0, 0, 0, 0])], (decode q).admitted mixed.maxRx = false) ∧
        decode (Request.bare 0b11) = .split [] ∧ (Instr.split []).admitted mixed.maxRx = true) ∧
      overLongOnly.pending ≠ [] ∧ ∀ q ∈ overLongOnly.pending, (decode q).admitted overLongOnly.maxRx = false := by
  decide

theorem witness_idle : State.reset.pending = [] := by decide

/-- `OperationsChangeOnlyTheRecord`, `ResponseDependsOnRequestAlone`, `EachOperationHasOneErrorKind`: one answer of each
operation, the error answers here and the success answers above. -/
theorem witness_every_operation_answers :
    exec (.encode .telemetry false 2048 .unsegmented 0 1) (idle none) =
        .next ((idle none).answered (.encode .telemetry false 2048 .unsegmented 0 1) (.errRange 0b0001)) ∧
      exec (.decode []) (idle (some 6)) = .next ((idle (some 6)).answered (.decode []) .errTruncHdr) ∧
      exec (.build .telemetry false 0 .unsegmented 0 []) (idle none) =
        .next ((idle none).answered (.build .telemetry false 0 .unsegmented 0 []) (.errRange 0b0100)) ∧
      exec (.split []) (idle (some 6)) = .next ((idle (some 6)).answered (.split []) .errTruncHdr) :=
  ⟨rfl, rfl, rfl, rfl⟩

theorem witness_decode_succeeds :
    exec (.decode [0, 0, 0, 0, 0, 0]) (idle (some 6)) =
      .next ((idle (some 6)).answered (.decode [0, 0, 0, 0, 0, 0])
        (.okFields { pvn := 0, type := .telemetry, shf := false, apid := 0, sf := .continuation, sc := 0, dl := 0 })) :=
  rfl

/-- `AnsweredExactlyWhenAdmitted`: MAX_RX admits six bytes and not the seventh, and with no bound every length. -/
theorem witness_admitted :
    (Instr.decode [0, 0, 0, 0, 0, 0]).admitted (idle (some 6)).maxRx = true ∧
      (Instr.decode [0, 0, 0, 0, 0, 0, 0]).admitted (idle (some 6)).maxRx = false ∧
      (Instr.split [0, 0, 0, 0, 0, 0]).admitted (idle (some 6)).maxRx = true ∧
      (Instr.split [0, 0, 0, 0, 0, 0, 0]).admitted (idle (some 6)).maxRx = false := by decide

theorem witness_written_out_bound :
    (idle (some 6)).maxRx = some 6 ∧ 6 < ([0, 0, 0, 0, 0, 0, 0] : ByteSeq).length ∧
      ([0, 0, 0, 0, 0, 0] : ByteSeq).length ≤ 6 ∧ (idle none).maxRx = none := by decide

theorem witness_statuses : (Response.errTruncHdr).status ≠ .success ∧ (Response.okHdr []).status = .success := by
  decide

theorem witness_resetDrops :
    exec (decode (Request.bare 0b01)) (idle none) =
      .next ((idle none).answered (decode (Request.bare 0b01)) .errTruncHdr) := rfl

theorem witness_maxRx_legal : Config.maxRxLegal (some 6) = true ∧ Config.maxRxLegal none = true := by decide

/-- `StepKeepsTransactionsLawful`: a state with a past, a request waiting and a next state. -/
theorem witness_invariant :
    (((idle (some 6)).answered (.decode []) .errTruncHdr).present (Request.bare 0b11)).Inv ∧
      step (((idle (some 6)).answered (.decode []) .errTruncHdr).present (Request.bare 0b11)) =
        .next (((idle (some 6)).answered (.decode []) .errTruncHdr).answered (.split []) .errTruncHdr) :=
  ⟨⟨by decide, by decide⟩, rfl⟩

/-- `RunAnswersEachRequestByItself`: with an over-long request among them two requests are ready, so a run of two steps
answers and one of three is refused; with none, a run of any length answers. -/
theorem witness_run :
    2 ≤ (mixed.pending.filter fun r => (decode r).admitted mixed.maxRx).length ∧
      ((mixed.pending.filter fun r => (decode r).admitted mixed.maxRx).length < 3 ∧
        (mixed.pending.filter fun r => (decode r).admitted mixed.maxRx).length < mixed.pending.length) ∧
      ((idle none).present (Request.bare 0b11)).pending.length =
        (((idle none).present (Request.bare 0b11)).pending.filter fun r => (decode r).admitted none).length := by
  decide

theorem witness_byteWrite : 0 ≤ ([] : ByteSeq).length ∧ 2 ≤ ([0x01, 0x02] : ByteSeq).length := by decide

end Sys2Proof.Tests
end

/-! PROOFS. The scope rules: which numbers the encoder's ports carry (00_scope.md R8) and what a byte write does to every
offset (00_scope.md R11). -/

namespace Sys2Proof

/-! ### Port widths (R8) -/

/-- The widths R8 allows, port by port. -/
theorem Config.PortWidths.legal_iff (w : Config.PortWidths) :
    w.legal = true ↔ 12 ≤ w.apidIn ∧ 15 ≤ w.scIn ∧ 17 ≤ w.lenIn := by
  simp [Config.PortWidths.legal, and_assoc]

/-- An `ENCODE` can be presented when each number is below its own port's bound (R59). -/
theorem Instr.fitsPorts_encode_iff (w : Config.PortWidths) (type : PacketType) (shf : Bool) (apid : Nat)
    (sf : SeqFlags) (sc plen : Nat) :
    (Instr.encode type shf apid sf sc plen).fitsPorts w = true ↔
      apid < 2 ^ w.apidIn ∧ sc < 2 ^ w.scIn ∧ plen < 2 ^ w.lenIn := by
  simp [Instr.fitsPorts, and_assoc]

/-- A number that fits a port fits every wider one. -/
theorem lt_two_pow_of_width_le {n narrow wide : Nat} (hn : n < 2 ^ narrow) (hle : narrow ≤ wide) : n < 2 ^ wide :=
  hn.trans_le (Nat.pow_le_pow_right Nat.two_pos hle)

/-- Settles O16: the boundary numbers fit the narrowest legal ports, hence every legal port. -/
theorem boundaryRequestsFitThePorts : Obligations.BoundaryRequestsFitThePorts := by
  constructor
  · intro w type shf sf apid sc plen hlegal hapid hsc hplen
    obtain ⟨hwApid, hwSc, hwLen⟩ := w.legal_iff.mp hlegal
    have hApidNarrow : apid < 2 ^ 12 := by omega
    have hScNarrow : sc < 2 ^ 15 := by omega
    have hLenNarrow : plen < 2 ^ 17 := by omega
    exact (Instr.fitsPorts_encode_iff ..).mpr
      ⟨lt_two_pow_of_width_le hApidNarrow hwApid, lt_two_pow_of_width_le hScNarrow hwSc,
        lt_two_pow_of_width_le hLenNarrow hwLen⟩
  · intro type shf sf apid sc plen
    rw [Instr.fitsPorts_encode_iff]
    change apid < 2 ^ 16 ∧ sc < 2 ^ 16 ∧ plen < 2 ^ 32 ↔ _
    omega

namespace Machine

/-! ### What a byte write does to every offset (R11) -/

/-- The bytes kept before the written one read as before. -/
theorem memRead_take (out : ByteSeq) {offset k : Nat} (hk : k < offset) :
    memRead (out.take offset) k = memRead out k := by
  simp [memRead, List.getElem?_take_of_lt hk]

/-- The bytes kept after the written one, counted from there. -/
theorem memRead_drop (out : ByteSeq) (offset k : Nat) : memRead (out.drop offset) k = memRead out (offset + k) := by
  simp [memRead]

/-- At and after the written offset a write reads as the written byte followed by the rest. -/
theorem memRead_memWrite_add (out : ByteSeq) {offset : Nat} (v : Byte) (hle : offset ≤ out.length) (k : Nat) :
    memRead (memWrite out offset v) (offset + k) = memRead (v :: out.drop (offset + 1)) k := by
  have happend := memRead_append_right (out.take offset) (v :: out.drop (offset + 1)) k
  rwa [List.length_take_of_le hle] at happend

/-- The written byte is read back. -/
theorem memRead_memWrite_same (out : ByteSeq) {offset : Nat} (v : Byte) (hle : offset ≤ out.length) :
    memRead (memWrite out offset v) offset = some v :=
  memRead_memWrite_add out v hle 0

/-- A write leaves every other offset as it was: those before it are kept, those after it keep their place. -/
theorem memRead_memWrite_of_ne (out : ByteSeq) {offset k : Nat} (v : Byte) (hle : offset ≤ out.length)
    (hne : k ≠ offset) : memRead (memWrite out offset v) k = memRead out k := by
  obtain hlt | hgt := Nat.lt_or_gt_of_ne hne
  · calc memRead (memWrite out offset v) k
        = memRead (out.take offset) k :=
          memRead_append_left _ _ (by rwa [List.length_take_of_le hle])
      _ = memRead out k := memRead_take out hlt
  · obtain ⟨d, rfl⟩ := Nat.exists_eq_add_of_lt hgt
    calc memRead (memWrite out offset v) (offset + (d + 1))
        = memRead (v :: out.drop (offset + 1)) (d + 1) := memRead_memWrite_add out v hle (d + 1)
      _ = memRead out (offset + 1 + d) := by rw [memRead_cons_succ, memRead_drop]
      _ = memRead out (offset + (d + 1)) := by rw [Nat.add_assoc, Nat.add_comm 1 d]

/-- Settles O37: the read back at the offset, and the frame at every other one. -/
theorem byteWriteIsReadBack : Obligations.ByteWriteIsReadBack := by
  intro out offset v hle
  exact ⟨memRead_memWrite_same out v hle, fun _ hne => memRead_memWrite_of_ne out v hle hne⟩

end Machine

end Sys2Proof

/-! PROOFS. The state of the codec (10_state.md): what a response is a function of, the frame of an operation, which
request a step takes, the safety invariant, and what a run of any length answers and leaves waiting. -/

namespace Sys2Proof.Machine

/-! ### The response of a request (R15, R16) -/

/-- The response that ends a transaction with the given result. -/
def Response.ofResult {α : Type} (success : α → Response) : Except CodecError α → Response
  | .ok a => success a
  | .error e => e.response

@[simp] theorem Response.ofResult_ok {α : Type} (success : α → Response) (a : α) :
    Response.ofResult success (.ok a) = success a := rfl

@[simp] theorem Response.ofResult_error {α : Type} (success : α → Response) (e : CodecError) :
    Response.ofResult success (.error e) = e.response := rfl

/-- The one response of a request MAX_RX admits: a function of the request alone, since the codec holds no state (R15).
`exec_eq_next_iff` ties it to `exec`. -/
def responseTo : Instr → Response
  | .encode type shf apid sf sc plen => .ofResult .okHdr (encodeHeader type shf apid sf sc plen)
  | .decode buf => .ofResult .okFields (decodeHeader buf)
  | .build type shf apid sf sc payload => .ofResult .okPkt (buildPacket type shf apid sf sc payload)
  | .split buf => .ofResult (fun (h, payload) => .okSplit h payload) (splitPacket buf)

/-- A request MAX_RX admits is answered, whatever the state. -/
theorem exec_of_admitted {i : Instr} {s : State} (hadm : i.admitted s.maxRx = true) :
    exec i s = .next (s.answered i (responseTo i)) := by
  cases i with
  | encode type shf apid sf sc plen =>
    obtain ⟨hdr, hres, hexec⟩ | ⟨e, hres, hexec⟩ := execEncode_cases type shf apid sf sc plen s <;>
      simp [exec, hexec, responseTo, hres]
  | build type shf apid sf sc payload =>
    obtain ⟨hdr, hres, hexec⟩ | ⟨e, hres, hexec⟩ := execBuild_cases type shf apid sf sc payload s <;>
      simp [exec, hexec, responseTo, buildPacket_eq, hres, Except.map]
  | decode buf =>
    obtain ⟨hlong, -⟩ | ⟨h, -, hres, hexec⟩ | ⟨e, -, hres, hexec⟩ := execDecode_cases buf s
    · exact absurd (hadm.symm.trans hlong) (by decide)
    · simp [exec, hexec, responseTo, hres]
    · simp [exec, hexec, responseTo, hres]
  | split buf =>
    obtain ⟨hlong, -⟩ | ⟨h, -, hres, hexec⟩ | ⟨e, -, hres, hexec⟩ := execSplit_cases buf s
    · exact absurd (hadm.symm.trans hlong) (by decide)
    · simp [exec, hexec, responseTo, splitPacket_eq, hres, Except.map]
    · simp [exec, hexec, responseTo, splitPacket_eq, hres, Except.map]

/-- Everything an operation that goes on can do: its request was admitted, and its one response is recorded. -/
theorem exec_eq_next_iff {i : Instr} {s t : State} :
    exec i s = .next t ↔ i.admitted s.maxRx = true ∧ t = s.answered i (responseTo i) := by
  cases hadm : i.admitted s.maxRx with
  | true => simp [exec_of_admitted hadm, eq_comm]
  | false => simp [exec_refused_of_not_admitted hadm]

/-- Settles O27: an answer is one more record, and no other field of the state. -/
theorem operationsChangeOnlyTheRecord : Obligations.OperationsChangeOnlyTheRecord := by
  intro i s t hexec
  obtain ⟨-, rfl⟩ := exec_eq_next_iff.mp hexec
  exact ⟨rfl, rfl, responseTo i, rfl⟩

/-! ### Which request a step takes (R16, R99, R108) -/

/-- A step carries out the request it takes. -/
theorem step_of_fetch {s t : State} {r : Request} (hf : fetch s = some (r, t)) : step s = exec (decode r) t := by
  rw [step, hf]

/-- With nothing presented a step is idle. -/
theorem step_of_pending_nil {s : State} (hp : s.pending = []) : step s = .next s := by
  obtain ⟨-, hs⟩ | ⟨before, r, after, hcons, -⟩ | ⟨hne, -⟩ := step_cases s
  · exact hs
  · simp [hp] at hcons
  · exact absurd hp hne

/-- Where only requests longer than MAX_RX wait, a step is refused. -/
theorem step_of_none_admitted {s : State} (hne : s.pending ≠ [])
    (hlong : ∀ q ∈ s.pending, (decode q).admitted s.maxRx = false) : step s = .refused .inputTooLong := by
  obtain ⟨hnil, -⟩ | ⟨before, r, after, hp, -, hr, -⟩ | ⟨-, -, hs⟩ := step_cases s
  · exact absurd hnil hne
  · exact absurd (hlong r (by simp [hp])) (by simp [hr])
  · exact hs

/-- Settles O24: the first admitted request is the one fetched, and with none admitted the step is refused. -/
theorem stepCarriesOutTheOldestRequest : Obligations.StepCarriesOutTheOldestRequest := by
  constructor
  · rintro before r after i s hp hbefore rfl hadm
    exact step_of_fetch (fetch_admitted hp hbefore hadm)
  · exact fun s => step_of_none_admitted

/-- Settles O26: nothing presented, nothing fetched. -/
theorem idleStepChangesNothing : Obligations.IdleStepChangesNothing := fun _ => step_of_pending_nil

/-! ### The safety invariant (R8, R18, R60, R61, R84) -/

/-- The ranges of R55, operand by operand. -/
theorem operandsInRange_iff (apid sc plen : Nat) :
    operandsInRange apid sc plen = true ↔ apid ≤ 2047 ∧ sc ≤ 16383 ∧ 1 ≤ plen ∧ plen ≤ 65536 := by
  simp [operandsInRange, and_assoc]

/-- A mask that is not zero is a legal one: no length is both zero and above 65536 (R61). -/
theorem causeLegal_rangeCause {apid sc plen : Nat} (hne : rangeCause apid sc plen ≠ 0#4) :
    causeLegal (rangeCause apid sc plen) = true := by
  obtain ⟨-, -, hzero, hover⟩ := rangeCause_bits apid sc plen
  have hnotBoth : ¬(causeLenZero plen = true ∧ causeLenOver plen = true) := by
    rw [causeLenZero_iff, causeLenOver_iff]
    omega
  rw [← hzero, ← hover] at hnotBoth
  simpa [causeLegal, hne, or_iff_not_imp_left] using hnotBoth

/-- What `ENCODE` gives, in the terms of the invariant: six bytes in range, else a legal mask. -/
theorem encodeHeader_lawful_cases (type : PacketType) (shf : Bool) (apid : Nat) (sf : SeqFlags) (sc plen : Nat) :
    (operandsInRange apid sc plen = true ∧
        ∃ hdr, encodeHeader type shf apid sf sc plen = .ok hdr ∧ hdr.length = 6) ∨
      (operandsInRange apid sc plen = false ∧
        ∃ cause, encodeHeader type shf apid sf sc plen = .error (.range cause) ∧ causeLegal cause = true) := by
  obtain ⟨hin, henc⟩ | ⟨hout, henc⟩ := encodeHeader_cases type shf apid sf sc plen
  · exact .inl ⟨(operandsInRange_iff ..).mpr hin, _, henc, packHeader_length _⟩
  · have hne : rangeCause apid sc plen ≠ 0#4 := fun h => hout ((rangeCause_eq_zero_iff ..).mp h)
    exact .inr ⟨Bool.eq_false_iff.mpr (mt (operandsInRange_iff ..).mp hout), _, henc, causeLegal_rangeCause hne⟩

/-- The response of an admitted request is one the spec allows it (R18, R60, R61, R84). -/
theorem responseTo_lawful {maxRx : Option Nat} {i : Instr} (hadm : i.admitted maxRx = true) :
    Transaction.lawful maxRx { request := i, response := responseTo i } = true := by
  cases i with
  | encode type shf apid sf sc plen =>
    obtain ⟨hr, hdr, henc, hlen⟩ | ⟨hr, cause, henc, hlegal⟩ :=
      encodeHeader_lawful_cases type shf apid sf sc plen
    · simp [Transaction.lawful, responseTo, henc, encoderResponseLawful, hr, hlen]
    · simp [Transaction.lawful, responseTo, henc, CodecError.response, encoderResponseLawful, hr, hlegal]
  | build type shf apid sf sc payload =>
    obtain ⟨hr, hdr, henc, hlen⟩ | ⟨hr, cause, henc, hlegal⟩ :=
      encodeHeader_lawful_cases type shf apid sf sc payload.length
    · simp [Transaction.lawful, responseTo, buildPacket_eq, henc, Except.map, encoderResponseLawful, hr, hlen]
    · simp [Transaction.lawful, responseTo, buildPacket_eq, henc, Except.map, CodecError.response,
        encoderResponseLawful, hr, hlegal]
  | decode buf =>
    have hrx : Config.rxAdmits maxRx buf.length = true := hadm
    obtain ⟨hlt, hdec⟩ | ⟨b0, b1, b2, b3, b4, b5, rest, rfl, hdec⟩ := decodeHeader_cases buf
    · simp [Transaction.lawful, hrx, responseTo, hdec, CodecError.response, decoderResponseLawful, hlt]
    · simpa [Transaction.lawful, responseTo, decoderResponseLawful] using hrx
  | split buf =>
    have hrx : Config.rxAdmits maxRx buf.length = true := hadm
    obtain ⟨hlt, hdec⟩ | ⟨b0, b1, b2, b3, b4, b5, rest, rfl, hdec⟩ := decodeHeader_cases buf
    · simp [Transaction.lawful, hrx, responseTo, splitPacket_eq, hdec, Except.map, CodecError.response,
        decoderResponseLawful, hlt]
    · simpa [Transaction.lawful, responseTo, splitPacket_eq, Except.map, decoderResponseLawful] using hrx

/-- The invariant reads MAX_RX and the record only, not the requests waiting. -/
theorem State.Inv.with_pending {s : State} (hinv : s.Inv) (waiting : List Request) :
    State.Inv { s with pending := waiting } := hinv

/-- Recording a lawful transaction keeps the invariant. -/
theorem State.Inv.answered {s : State} {i : Instr} {r : Response} (hinv : s.Inv)
    (hlaw : Transaction.lawful s.maxRx { request := i, response := r } = true) : (s.answered i r).Inv := by
  obtain ⟨hrx, hpast⟩ := hinv
  refine ⟨hrx, fun t ht => ?_⟩
  rw [State.answered_transactions, List.mem_append, List.mem_singleton] at ht
  obtain hold | rfl := ht
  · exact hpast t hold
  · exact hlaw

/-- Every operation keeps the invariant. -/
theorem exec_keeps_inv {i : Instr} {s t : State} (hinv : s.Inv) (hexec : exec i s = .next t) : t.Inv := by
  obtain ⟨hadm, rfl⟩ := exec_eq_next_iff.mp hexec
  exact hinv.answered (responseTo_lawful hadm)

/-- Settles O35: an idle step changes nothing, and any other is an operation on a state that differs in what waits. -/
theorem stepKeepsTransactionsLawful : Obligations.StepKeepsTransactionsLawful := by
  intro s s' hinv hstep
  obtain ⟨-, hs⟩ | ⟨before, r, after, -, -, -, hs⟩ | ⟨-, -, hs⟩ := step_cases s
  · cases hs.symm.trans hstep
    exact hinv
  · exact exec_keeps_inv (hinv.with_pending _) (hs.symm.trans hstep)
  · cases hs.symm.trans hstep

/-- Settles O34: the start state's record is empty, so that only MAX_RX has to be legal. -/
theorem resetStateIsSafe : Obligations.ResetStateIsSafe :=
  ⟨rfl, rfl, fun _ hlegal => ⟨hlegal, fun _ ht => absurd ht List.not_mem_nil⟩⟩

/-! ### Runs (R16, R43, R99, R108) -/

/-- The waiting requests MAX_RX admits, oldest first. -/
def State.ready (s : State) : List Request := s.pending.filter fun r => (decode r).admitted s.maxRx

/-- The waiting requests longer than MAX_RX, oldest first. -/
def State.overLong (s : State) : List Request := s.pending.filter fun r => !(decode r).admitted s.maxRx

/-- The transaction that answers a request MAX_RX admits. -/
def transactionOf (r : Request) : Transaction := { request := decode r, response := responseTo (decode r) }

/-- None is ready exactly when every request waiting is longer than MAX_RX. -/
theorem State.ready_eq_nil_iff {s : State} :
    s.ready = [] ↔ ∀ q ∈ s.pending, (decode q).admitted s.maxRx = false := by
  simp [State.ready, List.filter_eq_nil_iff]

/-- Every request waiting is ready or over-long. -/
theorem State.length_ready_add_length_overLong (s : State) :
    s.ready.length + s.overLong.length = s.pending.length :=
  (List.length_eq_length_filter_add _).symm

/-- With none ready, the over-long requests are all that wait. -/
theorem State.overLong_eq_pending {s : State} (hready : s.ready = []) : s.overLong = s.pending := by
  rw [State.overLong, List.filter_eq_self]
  intro q hq
  simp [State.ready_eq_nil_iff.mp hready q hq]

/-- From `s` to `t` the first `k` ready requests were answered (all of them where fewer are ready), the others go on
waiting in their order, and nothing else changed. -/
structure AnswersReady (k : Nat) (s t : State) : Prop where
  maxRx : t.maxRx = s.maxRx
  sublist : t.pending.Sublist s.pending
  ready : t.ready = s.ready.drop k
  overLong : t.overLong = s.overLong
  transactions : t.transactions = s.transactions ++ (s.ready.take k).map transactionOf

/-- Answering none changes nothing. -/
theorem AnswersReady.refl (s : State) : AnswersReady 0 s s :=
  ⟨rfl, List.Sublist.refl _, rfl, rfl, by simp⟩

/-- With none ready, any number of answers changes nothing. -/
theorem AnswersReady.of_ready_nil {s : State} (hready : s.ready = []) (k : Nat) : AnswersReady k s s :=
  ⟨rfl, List.Sublist.refl _, by simp [hready], rfl, by simp [hready]⟩

/-- The answers of two stretches, one after the other. -/
theorem AnswersReady.trans {m n : Nat} {s t u : State} (hst : AnswersReady m s t) (htu : AnswersReady n t u) :
    AnswersReady (m + n) s u where
  maxRx := htu.maxRx.trans hst.maxRx
  sublist := htu.sublist.trans hst.sublist
  ready := by rw [htu.ready, hst.ready, List.drop_drop]
  overLong := htu.overLong.trans hst.overLong
  transactions := by
    rw [htu.transactions, hst.transactions, hst.ready, List.append_assoc, ← List.map_append, List.take_add]

/-- The end state, written as the first one with what waits and the record replaced. -/
theorem AnswersReady.eq {k : Nat} {s t : State} (h : AnswersReady k s t) :
    t = { s with
      pending := t.pending
      transactions := s.transactions ++ (s.ready.take k).map transactionOf } := by
  rw [← h.transactions, ← h.maxRx]

/-- What is still ready, by the MAX_RX of the first state. -/
theorem AnswersReady.filter_admitted {k : Nat} {s t : State} (h : AnswersReady k s t) :
    (t.pending.filter fun r => (decode r).admitted s.maxRx) = s.ready.drop k := by
  rw [← h.maxRx]
  exact h.ready

/-- What is still over-long, by the MAX_RX of the first state. -/
theorem AnswersReady.filter_not_admitted {k : Nat} {s t : State} (h : AnswersReady k s t) :
    (t.pending.filter fun r => !(decode r).admitted s.maxRx) = s.overLong := by
  rw [← h.maxRx]
  exact h.overLong

/-- Answering the first admitted request answers the first ready one. -/
theorem AnswersReady.of_first {s : State} {before after : List Request} {r : Request}
    (hp : s.pending = before ++ r :: after) (hbefore : ∀ q ∈ before, (decode q).admitted s.maxRx = false)
    (hadm : (decode r).admitted s.maxRx = true) :
    AnswersReady 1 s (State.answered { s with pending := before ++ after } (decode r) (responseTo (decode r))) := by
  have hnone : before.filter (fun q => (decode q).admitted s.maxRx) = [] := by simpa using hbefore
  have hready : s.ready = r :: after.filter fun q => (decode q).admitted s.maxRx := by
    simp [State.ready, hp, hnone, hadm]
  constructor
  case maxRx => rfl
  case sublist => simp [hp]
  case ready =>
    rw [hready]
    simp [State.ready, hnone]
  case overLong => simp [State.overLong, hp, hadm]
  case transactions => simp [hready, transactionOf]

/-- Where a request is ready or no over-long one waits, a step answers the first ready request, if there is one. -/
theorem step_answersReady {s : State} (h : s.ready ≠ [] ∨ s.overLong = []) :
    ∃ t, step s = .next t ∧ AnswersReady 1 s t := by
  obtain ⟨hnil, hs⟩ | ⟨before, r, after, hp, hbefore, hadm, hs⟩ | ⟨hne, hlong, -⟩ := step_cases s
  · exact ⟨s, hs, .of_ready_nil (by simp [State.ready, hnil]) 1⟩
  · exact ⟨_, hs.trans (exec_of_admitted hadm), .of_first hp hbefore hadm⟩
  · have hready : s.ready = [] := State.ready_eq_nil_iff.mpr hlong
    rw [State.overLong_eq_pending hready] at h
    exact absurd h (by simp [hready, hne])

/-- Where none is ready and an over-long request waits, a step is refused. -/
theorem step_of_ready_nil {s : State} (hready : s.ready = []) (hover : s.overLong ≠ []) :
    step s = .refused .inputTooLong := by
  rw [State.overLong_eq_pending hready] at hover
  exact step_of_none_admitted hover (State.ready_eq_nil_iff.mp hready)

/-- A run with a ready request for each of its steps, or with no over-long request waiting, answers in order. -/
theorem core_run_answersReady {k : Nat} {s : State} (hk : k ≤ s.ready.length ∨ s.overLong = []) :
    ∃ t : State, core.run k s = .next t ∧ AnswersReady k s t := by
  induction k generalizing s with
  | zero => exact ⟨s, rfl, .refl s⟩
  | succ k ih =>
    have hgo : s.ready ≠ [] ∨ s.overLong = [] :=
      hk.imp_left fun hlt => List.ne_nil_of_length_pos (Nat.zero_lt_of_lt hlt)
    obtain ⟨t, hstep, hfirst⟩ := step_answersReady hgo
    have hkt : k ≤ t.ready.length ∨ t.overLong = [] := by
      rw [hfirst.ready, hfirst.overLong, List.length_drop]
      exact hk.imp_left Nat.le_sub_of_add_le
    obtain ⟨u, hrun, hrest⟩ := ih hkt
    exact ⟨u, (core_run_succ k hstep).trans hrun, Nat.add_comm 1 k ▸ hfirst.trans hrest⟩

/-- A run with more steps than ready requests is refused where an over-long request waits. -/
theorem core_run_eq_refused {k : Nat} {s : State} (hk : s.ready.length < k) (hover : s.overLong ≠ []) :
    core.run k s = .refused .inputTooLong := by
  induction k generalizing s with
  | zero => exact absurd hk (Nat.not_lt_zero _)
  | succ k ih =>
    by_cases hready : s.ready = []
    · exact core_run_refused k (step_of_ready_nil hready hover)
    · obtain ⟨t, hstep, hfirst⟩ := step_answersReady (.inl hready)
      have hpos : 0 < s.ready.length := List.length_pos_of_ne_nil hready
      rw [core_run_succ k hstep]
      exact ih (by rw [hfirst.ready, List.length_drop]; omega) (by rwa [hfirst.overLong])

/-- Settles O36, by the function `responseTo`: no over-long request waits exactly where all that wait are ready. -/
theorem runAnswersEachRequestByItself : Obligations.RunAnswersEachRequestByItself := by
  refine ⟨responseTo, fun s k => ?_⟩
  have hlen := s.length_ready_add_length_overLong
  constructor
  · intro hk
    have hover : s.ready.length = s.pending.length → s.overLong = [] :=
      fun hall => List.eq_nil_of_length_eq_zero (by omega)
    obtain ⟨t, hrun, hans⟩ := core_run_answersReady (hk.imp_right hover)
    exact ⟨t.pending, hans.sublist, hans.filter_admitted, hans.filter_not_admitted, hrun.trans (congrArg _ hans.eq)⟩
  · intro hlt hsome
    exact core_run_eq_refused hlt (List.ne_nil_of_length_pos (Nat.pos_of_lt_add_right (hlen ▸ hsome)))

/-- Settles O44: after one step for each ready request none is ready, so that what waits is what was over-long. -/
theorem everyAdmittedRequestIsAnswered : Obligations.EveryAdmittedRequestIsAnswered := by
  intro s
  obtain ⟨t, hrun, hans⟩ := core_run_answersReady (.inl (Nat.le_refl s.ready.length))
  have hwaiting : t.pending = s.overLong :=
    (State.overLong_eq_pending (by rw [hans.ready, List.drop_length])).symm.trans hans.overLong
  have hrecord : List.zipWith (fun r x => { request := decode r, response := x : Transaction }) s.ready
      (s.ready.map (responseTo <| decode ·)) = s.ready.map transactionOf := by
    rw [List.zipWith_map_right, List.zipWith_self]
    rfl
  refine ⟨s.ready.map (responseTo <| decode ·), List.length_map _, hrun.trans (congrArg _ ?_)⟩
  rw [hans.eq, hwaiting, List.take_length, ← hrecord]
  rfl

/-! ### The readers of a response (R18, R21, R60) -/

/-- Settles O42: reader by reader and response by response, each by the reader's own arm. -/
theorem readersDeliverWhatAResponseCarries : Obligations.ReadersDeliverWhatAResponseCarries where
  left _ := ⟨rfl, rfl, rfl, rfl, rfl⟩
  right := ⟨fun _ => ⟨rfl, rfl, rfl, rfl, rfl⟩, fun _ => ⟨rfl, rfl, rfl, rfl, rfl⟩,
    fun _ _ => ⟨rfl, rfl, rfl, rfl, rfl⟩, fun _ => rfl, rfl⟩

end Sys2Proof.Machine

/-! PROOFS. Memory (20_memory.md): the three views of the header bytes (R34), and what the content of a payload does not
decide (R42). -/

namespace Sys2Proof.Machine

/-! ### Big-endian words and their two bytes (R33, R34) -/

@[simp] theorem highByte_wordOfBytes (hi lo : Byte) : highByte (wordOfBytes hi lo) = hi :=
  BitVec.extractLsb'_append_eq_left

@[simp] theorem lowByte_wordOfBytes (hi lo : Byte) : lowByte (wordOfBytes hi lo) = lo :=
  BitVec.extractLsb'_append_eq_right

@[simp] theorem wordOfBytes_highByte_lowByte (w : Word16) : wordOfBytes (highByte w) (lowByte w) = w :=
  (BitVec.extractLsb'_append_extractLsb'_eq_extractLsb' rfl).trans BitVec.extractLsb'_eq_self

/-! ### The 48-bit value of six bytes (R34) -/

/-- The 48-bit value is the three words in offset order: none of them is swapped. -/
theorem headerWordOfBytes_eq_words (b0 b1 b2 b3 b4 b5 : Byte) :
    headerWordOfBytes b0 b1 b2 b3 b4 b5 = wordOfBytes b0 b1 ++ wordOfBytes b2 b3 ++ wordOfBytes b4 b5 := by
  simp only [headerWordOfBytes, wordOfBytes, BitVec.append_assoc, BitVec.cast_eq]

/-- The byte at each offset of the header is read out of the 48-bit value, offset 0 from its most significant bits: a
byte is read past the bytes below it (`extractLsb'_append_eq_of_le`), and then as the last byte of what is left. -/
theorem headerWordOfBytes_bytes (b0 b1 b2 b3 b4 b5 : Byte) :
    let H := headerWordOfBytes b0 b1 b2 b3 b4 b5
    H.extractLsb' 40 8 = b0 ∧ H.extractLsb' 32 8 = b1 ∧ H.extractLsb' 24 8 = b2 ∧
      H.extractLsb' 16 8 = b3 ∧ H.extractLsb' 8 8 = b4 ∧ H.extractLsb' 0 8 = b5 := by
  simp only [headerWordOfBytes]
  refine ⟨?_, ?_, ?_, ?_, ?_, BitVec.extractLsb'_append_eq_right⟩ <;>
    simp only [BitVec.extractLsb'_append_eq_of_le, BitVec.extractLsb'_append_eq_right, BitVec.extractLsb'_eq_self,
      Nat.reduceLeDiff, Nat.reduceSub]

/-- Settles O6: the 48-bit value against its words and its bytes, then each word against its two bytes. -/
theorem headerViewsAgree : Obligations.HeaderViewsAgree :=
  ⟨fun b0 b1 b2 b3 b4 b5 => ⟨headerWordOfBytes_eq_words b0 b1 b2 b3 b4 b5, headerWordOfBytes_bytes b0 b1 b2 b3 b4 b5⟩,
    fun hi lo => ⟨highByte_wordOfBytes hi lo, lowByte_wordOfBytes hi lo⟩, wordOfBytes_highByte_lowByte⟩

/-! ### The payload is opaque (R42, R70) -/

/-- `BUILD` answers by the header `ENCODE` packs for the payload's length; the payload's content only follows it. -/
theorem exec_build (type : PacketType) (shf : Bool) (apid : Nat) (sf : SeqFlags) (sc : Nat) (payload : ByteSeq)
    (s : State) :
    exec (.build type shf apid sf sc payload) s =
      .next (s.answered (.build type shf apid sf sc payload)
        (.ofResult (fun hdr => .okPkt (hdr ++ payload)) (encodeHeader type shf apid sf sc payload.length))) := by
  obtain ⟨hdr, henc, hexec⟩ | ⟨e, henc, hexec⟩ := execBuild_cases type shf apid sf sc payload s <;>
    rw [henc] <;> exact hexec

/-- Settles O12: both answers come from one `ENCODE` outcome, since that depends on the payload's length alone. -/
theorem buildIgnoresPayloadContent : Obligations.BuildIgnoresPayloadContent := by
  intro type shf apid sf sc p q s hlen
  rw [exec_build, exec_build, ← hlen]
  obtain ⟨-, henc⟩ | ⟨-, henc⟩ := encodeHeader_cases type shf apid sf sc p.length <;> rw [henc]
  · exact .inl ⟨_, rfl, rfl⟩
  · exact .inr ⟨_, rfl, rfl⟩

end Sys2Proof.Machine

/-! PROOFS. The encodings (30_encoding.md): the header format, what the encoder packs and the decoder unpacks, the codes
of operations, fields and statuses, and the text of requests and responses. -/

namespace Sys2Proof.Machine

/-! ### The header as three big-endian words (R48, R49, R50) -/

/-- The header that three big-endian words hold: the word column of R48. `unpackHeader_eq_headerOfWords` ties it to
`unpackHeader`. -/
def headerOfWords (w0 w1 w2 : Word16) : Header where
  pvn := w0.extractLsb' 13 3
  type := PacketType.ofBit (w0.extractLsb' 12 1)
  shf := flagOfBit (w0.extractLsb' 11 1)
  apid := w0.extractLsb' 0 11
  sf := SeqFlags.ofBits (w1.extractLsb' 14 2)
  sc := w1.extractLsb' 0 14
  dl := w2

/-- A field of the higher byte stands 8 bits further up in the word. -/
theorem extractLsb'_wordOfBytes_high (hi lo : Byte) (start len : Nat) :
    (wordOfBytes hi lo).extractLsb' (start + 8) len = hi.extractLsb' start len :=
  BitVec.extractLsb'_append_eq_of_le (Nat.le_add_left 8 start)

/-- A field of both bytes is its part of the higher byte, then the whole lower byte. -/
theorem extractLsb'_wordOfBytes_both (hi lo : Byte) (len : Nat) :
    (wordOfBytes hi lo).extractLsb' 0 (len + 8) = hi.extractLsb' 0 len ++ lo := by
  have hlow : (wordOfBytes hi lo).extractLsb' 0 8 = lo := lowByte_wordOfBytes hi lo
  calc (wordOfBytes hi lo).extractLsb' 0 (len + 8)
      = (wordOfBytes hi lo).extractLsb' (0 + 8) len ++ (wordOfBytes hi lo).extractLsb' 0 8 :=
        (BitVec.extractLsb'_append_extractLsb'_eq_extractLsb' rfl).symm
    _ = hi.extractLsb' 0 len ++ lo := by rw [extractLsb'_wordOfBytes_high, hlow]

/-- Unpacking six bytes reads the fields out of the three words. -/
theorem unpackHeader_eq_headerOfWords (b0 b1 b2 b3 b4 b5 : Byte) :
    unpackHeader b0 b1 b2 b3 b4 b5 =
      headerOfWords (wordOfBytes b0 b1) (wordOfBytes b2 b3) (wordOfBytes b4 b5) := by
  have hapid : (wordOfBytes b0 b1).extractLsb' 0 11 = b0.extractLsb' 0 3 ++ b1 := extractLsb'_wordOfBytes_both b0 b1 3
  have hsc : (wordOfBytes b2 b3).extractLsb' 0 14 = b2.extractLsb' 0 6 ++ b3 := extractLsb'_wordOfBytes_both b2 b3 6
  rw [headerOfWords, hapid, hsc, extractLsb'_wordOfBytes_high b0 b1 5, extractLsb'_wordOfBytes_high b0 b1 4,
    extractLsb'_wordOfBytes_high b0 b1 3, extractLsb'_wordOfBytes_high b2 b3 6]
  rfl

/-- A header is what its own words hold. -/
theorem headerOfWords_headerWords (h : Header) :
    headerOfWords (headerWord0 h) (headerWord1 h) (headerWord2 h) = h := by
  simp only [headerOfWords, headerWord0, headerWord1, headerWord2, BitVec.extractLsb'_append_eq_of_le,
    BitVec.extractLsb'_append_eq_right, BitVec.extractLsb'_eq_self, Nat.reduceLeDiff, Nat.reduceSub,
    PacketType.ofBit_bit, flagOfBit_flagBit, SeqFlags.ofBits_bits]

/-- The fields of the first word fill it: they are neighbouring cuts of it. -/
@[simp] theorem headerWord0_headerOfWords (w0 w1 w2 : Word16) : headerWord0 (headerOfWords w0 w1 w2) = w0 := by
  simp only [headerWord0, headerOfWords, PacketType.bit_ofBit, flagBit_flagOfBit,
    BitVec.extractLsb'_append_extractLsb'_eq_extractLsb', BitVec.extractLsb'_eq_self]

/-- The fields of the second word fill it. -/
@[simp] theorem headerWord1_headerOfWords (w0 w1 w2 : Word16) : headerWord1 (headerOfWords w0 w1 w2) = w1 := by
  simp only [headerWord1, headerOfWords, SeqFlags.bits_ofBits,
    BitVec.extractLsb'_append_extractLsb'_eq_extractLsb', BitVec.extractLsb'_eq_self]

@[simp] theorem headerWord2_headerOfWords (w0 w1 w2 : Word16) : headerWord2 (headerOfWords w0 w1 w2) = w2 := rfl

/-! ### Packing and unpacking (R50) -/

/-- Unpacking takes a packed header back. -/
theorem unpackHeader_packed (h : Header) :
    unpackHeader (highByte (headerWord0 h)) (lowByte (headerWord0 h)) (highByte (headerWord1 h))
      (lowByte (headerWord1 h)) (highByte (headerWord2 h)) (lowByte (headerWord2 h)) = h := by
  simp only [unpackHeader_eq_headerOfWords, wordOfBytes_highByte_lowByte, headerOfWords_headerWords]

/-- Packing gives the bytes back that a header was unpacked from. -/
theorem packHeader_unpackHeader (b0 b1 b2 b3 b4 b5 : Byte) :
    packHeader (unpackHeader b0 b1 b2 b3 b4 b5) = [b0, b1, b2, b3, b4, b5] := by
  simp only [unpackHeader_eq_headerOfWords, packHeader_eq, headerWord0_headerOfWords, headerWord1_headerOfWords,
    headerWord2_headerOfWords, highByte_wordOfBytes, lowByte_wordOfBytes]

/-- Settles O3: both directions go by the three words. -/
theorem headerPackUnpackInverse : Obligations.HeaderPackUnpackInverse :=
  ⟨fun h => ⟨_, _, _, _, _, _, packHeader_eq h, unpackHeader_packed h⟩, packHeader_unpackHeader⟩

/-! ### Where the fields stand (R48) -/

section Positions
variable (b0 b1 b2 b3 b4 b5 : Byte)

/-- The first word is the highest 16 bits of `H`. -/
theorem extractLsb'_headerWordOfBytes_word0 (start len : Nat) :
    (headerWordOfBytes b0 b1 b2 b3 b4 b5).extractLsb' (start + 32) len = (wordOfBytes b0 b1).extractLsb' start len := by
  rw [headerWordOfBytes_eq_words, BitVec.extractLsb'_append_eq_of_le (by omega),
    BitVec.extractLsb'_append_eq_of_le (by omega)]
  rfl

/-- The second word is the middle 16 bits of `H`. -/
theorem extractLsb'_headerWordOfBytes_word1 {start len : Nat} (hlen : start + len ≤ 16) :
    (headerWordOfBytes b0 b1 b2 b3 b4 b5).extractLsb' (start + 16) len = (wordOfBytes b2 b3).extractLsb' start len := by
  rw [headerWordOfBytes_eq_words, BitVec.extractLsb'_append_eq_of_le (Nat.le_add_left 16 start), Nat.add_sub_cancel,
    BitVec.extractLsb'_append_eq_of_add_le hlen]

/-- The third word is the lowest 16 bits of `H`. -/
theorem extractLsb'_headerWordOfBytes_word2 :
    (headerWordOfBytes b0 b1 b2 b3 b4 b5).extractLsb' 0 16 = wordOfBytes b4 b5 := by
  rw [headerWordOfBytes_eq_words, BitVec.extractLsb'_append_eq_right]

/-- The 48 bits are the seven fields and nothing else: each word is the concatenation of its own fields. -/
theorem headerWordOfBytes_eq_fields :
    let h := unpackHeader b0 b1 b2 b3 b4 b5
    headerWordOfBytes b0 b1 b2 b3 b4 b5 =
      h.pvn ++ h.type.bit ++ flagBit h.shf ++ h.apid ++ h.sf.bits ++ h.sc ++ h.dl := by
  intro h
  have hwords : h = headerOfWords (wordOfBytes b0 b1) (wordOfBytes b2 b3) (wordOfBytes b4 b5) :=
    unpackHeader_eq_headerOfWords ..
  calc headerWordOfBytes b0 b1 b2 b3 b4 b5
      = headerWord0 h ++ headerWord1 h ++ headerWord2 h := by
        rw [hwords, headerWord0_headerOfWords, headerWord1_headerOfWords, headerWord2_headerOfWords,
          headerWordOfBytes_eq_words]
    _ = h.pvn ++ h.type.bit ++ flagBit h.shf ++ h.apid ++ h.sf.bits ++ h.sc ++ h.dl := by
        simp only [headerWord0, headerWord1, headerWord2, BitVec.append_assoc, BitVec.cast_eq]

end Positions

/-- Settles O4: the byte column is how `unpackHeader` reads, the word column is `headerOfWords`, and the bits of `H` are
the bits of its words. -/
theorem headerFieldPositions : Obligations.HeaderFieldPositions := by
  intro b0 b1 b2 b3 b4 b5 h H w0 w1 w2
  have hwords : h = headerOfWords w0 w1 w2 := unpackHeader_eq_headerOfWords ..
  have hpvn : h.pvn = w0.extractLsb' 13 3 := congrArg Header.pvn hwords
  have htype : h.type.bit = w0.extractLsb' 12 1 := by rw [hwords]; exact PacketType.bit_ofBit _
  have hshf : flagBit h.shf = w0.extractLsb' 11 1 := by rw [hwords]; exact flagBit_flagOfBit _
  have hapid : h.apid = w0.extractLsb' 0 11 := congrArg Header.apid hwords
  have hsf : h.sf.bits = w1.extractLsb' 14 2 := by rw [hwords]; exact SeqFlags.bits_ofBits _
  have hsc : h.sc = w1.extractLsb' 0 14 := congrArg Header.sc hwords
  have hdl : h.dl = w2 := congrArg Header.dl hwords
  have hword0 (start len : Nat) : w0.extractLsb' start len = H.extractLsb' (start + 32) len :=
    (extractLsb'_headerWordOfBytes_word0 b0 b1 b2 b3 b4 b5 start len).symm
  have hword1 {start len : Nat} (hlen : start + len ≤ 16) :
      w1.extractLsb' start len = H.extractLsb' (start + 16) len :=
    (extractLsb'_headerWordOfBytes_word1 b0 b1 b2 b3 b4 b5 hlen).symm
  exact ⟨⟨hpvn.trans (hword0 13 3), rfl, hpvn⟩,
    ⟨htype.trans (hword0 12 1), PacketType.bit_ofBit _, htype⟩,
    ⟨hshf.trans (hword0 11 1), flagBit_flagOfBit _, hshf⟩,
    ⟨hapid.trans (hword0 0 11), BitVec.extractLsb'_append_eq_left, BitVec.extractLsb'_append_eq_right, hapid⟩,
    ⟨hsf.trans (hword1 (by decide)), SeqFlags.bits_ofBits _, hsf⟩,
    ⟨hsc.trans (hword1 (by decide)), BitVec.extractLsb'_append_eq_left, BitVec.extractLsb'_append_eq_right, hsc⟩,
    ⟨hdl.trans (extractLsb'_headerWordOfBytes_word2 b0 b1 b2 b3 b4 b5).symm, BitVec.extractLsb'_append_eq_left,
      BitVec.extractLsb'_append_eq_right, hdl⟩,
    headerWordOfBytes_eq_fields b0 b1 b2 b3 b4 b5⟩

/-! ### The words as numbers (R33, R49) -/

/-- A concatenation as a number: the first part counts in units of the second one's range. -/
theorem toNat_append_eq_add {m n : Nat} (x : BitVec m) (y : BitVec n) :
    (x ++ y).toNat = x.toNat * 2 ^ n + y.toNat := by
  rw [BitVec.toNat_append, ← Nat.shiftLeft_add_eq_or_of_lt y.isLt, Nat.shiftLeft_eq]

/-- The two bytes of a word, the higher in units of 256, are the word. -/
theorem highByte_toNat_mul_add_lowByte_toNat (w : Word16) :
    (highByte w).toNat * 256 + (lowByte w).toNat = w.toNat :=
  (toNat_append_eq_add (highByte w) (lowByte w)).symm.trans
    (congrArg BitVec.toNat (wordOfBytes_highByte_lowByte w))

theorem headerWord0_toNat (h : Header) :
    (headerWord0 h).toNat =
      h.pvn.toNat * 8192 + h.type.bit.toNat * 4096 + (flagBit h.shf).toNat * 2048 + h.apid.toNat := by
  simp only [headerWord0, toNat_append_eq_add]
  omega

theorem headerWord1_toNat (h : Header) : (headerWord1 h).toNat = h.sf.bits.toNat * 16384 + h.sc.toNat :=
  toNat_append_eq_add h.sf.bits h.sc

/-- Settles O5: each pair of bytes is a word, and each word is the sum of its fields in their units. -/
theorem packedWordsAsNumbers : Obligations.PackedWordsAsNumbers := fun h =>
  ⟨_, _, _, _, _, _, packHeader_eq h,
    (highByte_toNat_mul_add_lowByte_toNat _).trans (headerWord0_toNat h),
    (highByte_toNat_mul_add_lowByte_toNat _).trans (headerWord1_toNat h),
    highByte_toNat_mul_add_lowByte_toNat _⟩

/-! ### What an encoder request answers (R67, R69, R70) -/

/-- A request is answered with its one response and no other. -/
theorem exec_eq_next_answered_iff {i : Instr} {r : Response} {s : State} :
    exec i s = .next (s.answered i r) ↔ i.admitted s.maxRx = true ∧ responseTo i = r := by
  rw [exec_eq_next_iff]
  exact and_congr_right fun _ => ⟨fun h => (State.answered_inj h).2.symm, fun h => by rw [h]⟩

section EncoderAnswers
variable {type : PacketType} {shf : Bool} {apid : Nat} {sf : SeqFlags} {sc : Nat} {s : State}

/-- `ENCODE` answers bytes exactly in range, and they are the packed header. -/
theorem exec_encode_eq_okHdr_iff {plen : Nat} {bytes : ByteSeq} :
    exec (.encode type shf apid sf sc plen) s =
        .next (s.answered (.encode type shf apid sf sc plen) (.okHdr bytes)) ↔
      (apid ≤ 2047 ∧ sc ≤ 16383 ∧ 1 ≤ plen ∧ plen ≤ 65536) ∧
        packHeader (encoderHeader type shf apid sf sc plen) = bytes := by
  rw [exec_eq_next_answered_iff, responseTo]
  obtain ⟨hrange, henc⟩ | ⟨hrange, henc⟩ := encodeHeader_cases type shf apid sf sc plen
  · simp [henc, hrange, Instr.admitted]
  · simp [henc, hrange, CodecError.response]

/-- `ENCODE` answers an error exactly out of range, and its mask is the failed checks. -/
theorem exec_encode_eq_errRange_iff {plen : Nat} {cause : BitVec 4} :
    exec (.encode type shf apid sf sc plen) s =
        .next (s.answered (.encode type shf apid sf sc plen) (.errRange cause)) ↔
      rangeCause apid sc plen ≠ 0#4 ∧ rangeCause apid sc plen = cause := by
  rw [exec_eq_next_answered_iff, responseTo, ne_eq, rangeCause_eq_zero_iff]
  obtain ⟨hrange, henc⟩ | ⟨hrange, henc⟩ := encodeHeader_cases type shf apid sf sc plen
  · simp [henc, hrange]
  · simp [henc, hrange, CodecError.response, Instr.admitted]

/-- `BUILD` answers a packet exactly in range, and it is the packed header with the payload after it. -/
theorem exec_build_eq_okPkt_iff {payload packet : ByteSeq} :
    exec (.build type shf apid sf sc payload) s =
        .next (s.answered (.build type shf apid sf sc payload) (.okPkt packet)) ↔
      (apid ≤ 2047 ∧ sc ≤ 16383 ∧ 1 ≤ payload.length ∧ payload.length ≤ 65536) ∧
        packHeader (encoderHeader type shf apid sf sc payload.length) ++ payload = packet := by
  rw [exec_eq_next_answered_iff, responseTo, buildPacket_eq]
  obtain ⟨hrange, henc⟩ | ⟨hrange, henc⟩ := encodeHeader_cases type shf apid sf sc payload.length
  · simp [henc, hrange, Except.map, Instr.admitted]
  · simp [henc, hrange, Except.map, CodecError.response]

end EncoderAnswers

/-! ### The Packet Version Number (R54) -/

/-- The first byte of a packed header, whatever follows it, carries the header's version. -/
theorem memRead_packHeader_append_version (h : Header) (rest : ByteSeq) :
    ∃ b0, memRead (packHeader h ++ rest) 0 = some b0 ∧ b0.extractLsb' 5 3 = h.pvn :=
  ⟨_, rfl, congrArg Header.pvn (unpackHeader_packed h)⟩

/-- Settles O13: every answered byte sequence begins with a packed header of version 0. -/
theorem encoderAlwaysWritesVersionZero : Obligations.EncoderAlwaysWritesVersionZero := by
  constructor
  · intro type shf apid sf sc plen s bytes hexec
    obtain ⟨-, rfl⟩ := exec_encode_eq_okHdr_iff.mp hexec
    exact memRead_packHeader_append_version _ []
  · intro type shf apid sf sc payload s bytes hexec
    obtain ⟨-, rfl⟩ := exec_build_eq_okPkt_iff.mp hexec
    exact memRead_packHeader_append_version _ payload

/-! ### The cause mask (R61) -/

theorem causeLegal_iff (cause : BitVec 4) :
    causeLegal cause = true ↔ cause ≠ 0#4 ∧ ¬(cause.getLsbD 2 = true ∧ cause.getLsbD 3 = true) := by
  rw [causeLegal, Bool.and_eq_true, bne_iff_ne, Bool.not_eq_true', ← Bool.not_eq_true, Bool.and_eq_true]

/-- Operands that fail exactly the checks of a legal mask: each number is the first out of its range where its bit is
set, and in range where it is not. -/
theorem rangeCause_of_causeLegal : ∀ cause : BitVec 4, causeLegal cause = true →
    rangeCause (if cause.getLsbD 0 then 2048 else 0) (if cause.getLsbD 1 then 16384 else 0)
      (if cause.getLsbD 2 then 0 else if cause.getLsbD 3 then 65537 else 1) = cause := by
  decide

/-- Settles O14: a mask answered is the mask of some operands, hence legal; a legal mask has operands that fail exactly
its checks. -/
theorem causeMasksThatOccur : Obligations.CauseMasksThatOccur := by
  intro cause s
  rw [← causeLegal_iff]
  constructor
  · rintro ⟨type, shf, apid, sf, sc, plen, hexec⟩
    obtain ⟨hne, rfl⟩ := exec_encode_eq_errRange_iff.mp hexec
    exact causeLegal_rangeCause hne
  · intro hlegal
    have hmask := rangeCause_of_causeLegal cause hlegal
    have hne : cause ≠ 0#4 := ((causeLegal_iff cause).mp hlegal).1
    exact ⟨.telemetry, false, _, .unsegmented, _, _, exec_encode_eq_errRange_iff.mpr ⟨by rwa [hmask], hmask⟩⟩

/-! ### The Secondary Header Flag (R42, R53) -/

/-- Setting the flag adds bit 11 to the first word and nothing else. -/
theorem headerWord0_set_flag_toNat (h : Header) :
    (headerWord0 { h with shf := true }).toNat = (headerWord0 { h with shf := false }).toNat + 2048 := by
  have hon : (flagBit true).toNat = 1 := rfl
  have hoff : (flagBit false).toNat = 0 := rfl
  simp only [headerWord0_toNat, hon, hoff]
  omega

/-- Setting the flag adds 8 to byte 0 of a packed header and leaves the other bytes as they were. -/
theorem packHeader_set_flag (h : Header) :
    ∃ b0 b0' rest, packHeader { h with shf := false } = b0 :: rest ∧
      packHeader { h with shf := true } = b0' :: rest ∧ b0'.toNat = b0.toNat + 8 := by
  have hwords := headerWord0_set_flag_toNat h
  rw [← highByte_toNat_mul_add_lowByte_toNat, ← highByte_toNat_mul_add_lowByte_toNat] at hwords
  have hlow : lowByte (headerWord0 { h with shf := true }) = lowByte (headerWord0 { h with shf := false }) :=
    BitVec.eq_of_toNat_eq (by omega)
  exact ⟨_, _, _, packHeader_eq _, (packHeader_eq _).trans (by rw [hlow]; rfl), by omega⟩

/-- Flipping bit 3 of byte 0 flips the flag and no other field. -/
theorem unpackHeader_xor_flag (b0 b1 b2 b3 b4 b5 : Byte) :
    unpackHeader (b0 ^^^ 8#8) b1 b2 b3 b4 b5 =
      { unpackHeader b0 b1 b2 b3 b4 b5 with shf := !(unpackHeader b0 b1 b2 b3 b4 b5).shf } := by
  have hversion : (8#8).extractLsb' 5 3 = 0#3 := by decide
  have htype : (8#8).extractLsb' 4 1 = 0#1 := by decide
  have hflag : (8#8).extractLsb' 3 1 = 1#1 := by decide
  have hapid : (8#8).extractLsb' 0 3 = 0#3 := by decide
  have hflip : ∀ b : BitVec 1, flagOfBit (b ^^^ 1#1) = !flagOfBit b := by decide
  simp only [unpackHeader, BitVec.extractLsb'_xor, hversion, htype, hflag, hapid, BitVec.xor_zero, hflip]

/-- Settles O15: the two packed headers differ in byte 0 alone, and the decoder reads the flag from its bit alone. -/
theorem secondaryHeaderFlagIsOneBit : Obligations.SecondaryHeaderFlagIsOneBit := by
  refine ⟨fun type apid sf sc plen s hapid hsc hmin hmax => ?_, unpackHeader_xor_flag⟩
  obtain ⟨b0, b0', rest, hoff, hon, hadd⟩ := packHeader_set_flag (encoderHeader type false apid sf sc plen)
  have hrange : apid ≤ 2047 ∧ sc ≤ 16383 ∧ 1 ≤ plen ∧ plen ≤ 65536 := ⟨hapid, hsc, hmin, hmax⟩
  exact ⟨b0, b0', rest, exec_encode_eq_okHdr_iff.mpr ⟨hrange, hoff⟩,
    exec_encode_eq_okHdr_iff.mpr ⟨hrange, hon⟩, hadd⟩

/-! ### The declared length (R56, R57) -/

/-- `DECODE` of a packed header, whatever follows it, is that header. -/
theorem decodeHeader_packHeader_append (h : Header) (rest : ByteSeq) :
    decodeHeader (packHeader h ++ rest) = .ok h :=
  congrArg Except.ok (unpackHeader_packed h)

/-- The header of an in-range request declares the request's length: `plen - 1` loses no bit. -/
theorem declaredPayloadLength_encoderHeader (type : PacketType) (shf : Bool) (apid : Nat) (sf : SeqFlags) (sc : Nat)
    {plen : Nat} (hmin : 1 ≤ plen) (hmax : plen ≤ 65536) :
    declaredPayloadLength (encoderHeader type shf apid sf sc plen) = plen := by
  rw [declaredPayloadLength, encoderHeader, BitVec.toNat_ofNat]
  omega

/-- Settles O20: the packet is six header bytes and the payload, and the header declares the payload's length. -/
theorem builtPacketHasItsDeclaredLength : Obligations.BuiltPacketHasItsDeclaredLength := by
  intro type shf apid sf sc payload s packet hexec
  obtain ⟨⟨-, -, hmin, hmax⟩, rfl⟩ := exec_build_eq_okPkt_iff.mp hexec
  have hdeclared := declaredPayloadLength_encoderHeader type shf apid sf sc hmin hmax
  rw [List.length_append, packHeader_length]
  refine ⟨by omega, by omega, encoderHeader type shf apid sf sc payload.length, ?_,
    by rw [declaredPacketLength, hdeclared]⟩
  rw [exec_eq_next_answered_iff, responseTo, decodeHeader_packHeader_append]
  exact ⟨rfl, rfl⟩

/-! ### Codes of operations, fields and statuses (R51, R52, R53, R58, R60) -/

/-- The rows of the opcode table: each operation's select code under the mask of the two select bits (R58). -/
theorem mem_opcodeTable_iff (row : OpcodeRow) :
    row ∈ opcodeTable ↔ ∃ op : Op, row = { op := op, pattern := op.code.toNat, mask := 3 } := by
  constructor
  · intro hrow
    simp only [opcodeTable, List.mem_cons, List.not_mem_nil, or_false] at hrow
    obtain rfl | rfl | rfl | rfl := hrow
    exacts [⟨.encode, rfl⟩, ⟨.decode, rfl⟩, ⟨.build, rfl⟩, ⟨.split, rfl⟩]
  · rintro ⟨op, rfl⟩
    cases op <;> simp [opcodeTable, Op.code]

/-- A word matches an operation's row exactly when its two low bits are the operation's select code. -/
theorem and_mask_eq_pattern_iff (w : Nat) (op : Op) : w &&& 3 = op.code.toNat ↔ BitVec.ofNat 2 w = op.code := by
  rw [← BitVec.toNat_inj, BitVec.toNat_ofNat, ← Nat.and_two_pow_sub_one_eq_mod]

/-- The select code of a table word of two bits or more is the word's two low bits. -/
theorem requestOfWord_op {nbits : Nat} (w : Nat) (hbits : 2 ≤ nbits) :
    (requestOfWord nbits w).op = BitVec.ofNat 2 w := by
  apply BitVec.eq_of_toNat_eq
  simp only [requestOfWord, Request.bare, BitVec.toNat_ofNat]
  exact Nat.mod_mod_of_dvd w (Nat.pow_dvd_pow 2 hbits)

/-- What is decoded is a request of the selected operation. -/
@[simp] theorem decode_op (r : Request) : (decode r).op = Op.ofCode r.op := by
  unfold decode
  cases Op.ofCode r.op <;> rfl

/-- Settles O1: a matching word's low bits are its row's select code, and different operations have different codes. -/
theorem opcodeRowsSelectTheirOperation : Obligations.OpcodeRowsSelectTheirOperation := by
  refine ⟨by decide, fun row hrow nbits w hbits hmatch => ?_⟩
  obtain ⟨op, rfl⟩ := (mem_opcodeTable_iff row).mp hrow
  have hcode : BitVec.ofNat 2 w = op.code := (and_mask_eq_pattern_iff w op).mp hmatch
  refine ⟨⟨_, rfl, ?_⟩, fun other hother hmatch' => ?_⟩
  · rw [decode_op, requestOfWord_op w hbits, hcode, Op.ofCode_code]
  · obtain ⟨op', rfl⟩ := (mem_opcodeTable_iff other).mp hother
    have hcode' : BitVec.ofNat 2 w = op'.code := (and_mask_eq_pattern_iff w op').mp hmatch'
    have hop : op' = op := by rw [← Op.ofCode_code op', ← hcode', hcode, Op.ofCode_code]
    rw [hop]

/-- The ports of a request decode to it. -/
@[simp] theorem decode_encode (i : Instr) : decode (encode i) = i := by
  cases i <;> simp [decode, encode, Request.bare, Instr.op]

/-- The ports of what was decoded are the ports the operation reads. -/
theorem encode_decode (r : Request) : encode (decode r) = r.usedPorts := by
  have hcode : (Op.ofCode r.op).code = r.op := Op.code_ofCode r.op
  unfold decode Request.usedPorts
  cases hop : Op.ofCode r.op <;> rw [hop] at hcode <;> simp [encode, Request.bare, Instr.op, hcode]

/-- Settles O2: the codes of the operation and the fields are read back, and the numbers and bytes are carried as they
are. -/
theorem requestPortsRoundTrip : Obligations.RequestPortsRoundTrip := ⟨decode_encode, encode_decode⟩

/-- Settles O7: the decoder evaluated on each word, and each header by its written-out bits. -/
theorem writtenOutWordsDecode : Obligations.WrittenOutWordsDecode :=
  ⟨rfl, rfl, rfl, rfl, rfl, rfl, rfl⟩

/-- MAX_RX admits a request with no bytes, whatever its operation. -/
theorem admitted_decode_bare (maxRx : Option Nat) (code : BitVec 2) :
    (decode (Request.bare code)).admitted maxRx = true := by
  have hempty : Config.rxAdmits maxRx 0 = true := by cases maxRx <;> simp
  unfold decode
  cases Op.ofCode (Request.bare code).op with
  | encode => rfl
  | build => rfl
  | decode => exact hempty
  | split => exact hempty

/-- Settles O25: the placed word stands in front and is admitted, so it is the one the step takes. -/
theorem placedWordIsTheNextRequest : Obligations.PlacedWordIsTheNextRequest := by
  intro s nbits w
  have hadm : (decode (requestOfWord nbits w)).admitted s.maxRx = true := admitted_decode_bare s.maxRx _
  exact ⟨_, rfl, step_of_fetch (fetch_admitted (before := []) rfl (by simp) hadm)⟩

/-- A status has a code other than 3, and its code reads back. -/
theorem statusCode_ne_three_and_reads_back (st : Status) : st.code ≠ 3#2 ∧ readStatus st.code = .ok st := by
  cases st <;> exact ⟨by decide, rfl⟩

/-- Settles O31: the codes of the three statuses, and each kind of response by its status. -/
theorem statusCodeThreeIsNeverProduced : Obligations.StatusCodeThreeIsNeverProduced :=
  ⟨fun r => statusCode_ne_three_and_reads_back r.status, fun _ => rfl, fun _ => rfl, fun _ => rfl, fun _ _ => rfl,
    fun _ => rfl, rfl, rfl, rfl, rfl, rfl⟩

/-- Settles O41: each code and each value by itself. -/
theorem fieldCodesAreTheSpecs : Obligations.FieldCodesAreTheSpecs :=
  ⟨⟨rfl, rfl, rfl, rfl⟩, ⟨rfl, rfl, rfl, rfl⟩, ⟨rfl, rfl, rfl, rfl⟩, rfl, rfl, rfl, rfl⟩

/-! ### Values a text can carry (R63) -/

/-- A value the syntax can carry: the value part of `CleanOperand`. -/
abbrev CleanValue (value : Text) : Prop := value ≠ [] ∧ ',' ∉ value ∧ value.getLast? ≠ some ' '

/-- A key the syntax can carry: the key part of `CleanOperand`. -/
abbrev PlainKey (key : Text) : Prop := key ≠ [] ∧ ∀ c ∈ key, c ≠ '=' ∧ c ≠ ' ' ∧ c ≠ ','

/-- The keys of R63 are plain, each by its letters. -/
theorem cleanOperand_of_key_value (key : String) {value : Text} (hvalue : CleanValue value)
    (hkey : PlainKey key.toList := by simp [PlainKey]) : CleanOperand (key.toList, value) where
  key_ne := hkey.1
  key_plain := hkey.2
  value_ne := hvalue.1
  value_no_comma := hvalue.2.1
  value_last := hvalue.2.2

theorem cleanValue_of_hexDigits {value : Text} (hne : value ≠ [])
    (hdigits : ∀ c ∈ value, ∃ d < 16, c = hexDigit d) :
    CleanValue value := by
  refine ⟨hne, fun hcomma => ?_, fun hlast => ?_⟩
  · obtain ⟨d, hd, hc⟩ := hdigits _ hcomma
    obtain ⟨-, hne, -⟩ := hexDigit_ne d hd
    exact hne hc.symm
  · obtain ⟨d, hd, hc⟩ := hdigits _ (List.mem_of_getLast? hlast)
    obtain ⟨hne, -⟩ := hexDigit_ne d hd
    exact hne hc.symm

/-- The end of a value decides whether it is clean, but for commas before it. -/
theorem CleanValue.append {front value : Text} (hfront : ',' ∉ front) (hvalue : CleanValue value) :
    CleanValue (front ++ value) := by
  obtain ⟨hne, hcomma, hlast⟩ := hvalue
  exact ⟨List.append_ne_nil_of_right_ne_nil _ hne, by simp [hfront, hcomma],
    by rwa [List.getLast?_append_of_ne_nil _ hne]⟩

theorem cleanValue_printType (type : PacketType) : CleanValue (printType type) := by
  cases type <;> decide

theorem cleanValue_printFlag (shf : Bool) : CleanValue (printFlag shf) := by
  cases shf <;> decide

theorem cleanValue_printSeqFlags (sf : SeqFlags) : CleanValue (printSeqFlags sf) := by
  cases sf <;> decide

theorem cleanValue_printNumber (n : Nat) : CleanValue (printNumber n) := by
  refine cleanValue_of_hexDigits (printNumber_ne_nil n) fun c hc => ?_
  obtain ⟨d, hd, hcd⟩ := mem_printNumber hc
  exact ⟨d, by omega, hcd⟩

theorem cleanValue_printByte (b : Byte) : CleanValue (printByte b) := by
  have hb : b.toNat < 256 := b.isLt
  refine cleanValue_of_hexDigits (List.cons_ne_nil _ _) ?_
  simp only [printByte, List.forall_mem_cons, List.not_mem_nil, false_imp_iff, implies_true, and_true]
  exact ⟨⟨b.toNat / 16, by omega, rfl⟩, ⟨b.toNat % 16, by omega, rfl⟩⟩

/-- Spaces stand between the bytes of a sequence, not after the last. -/
theorem cleanValue_printBytes (bs : ByteSeq) : CleanValue (printBytes bs) := by
  cases bs with
  | nil => decide
  | cons b bs =>
    induction bs generalizing b with
    | nil => simpa [printBytes, printMoreBytes] using cleanValue_printByte b
    | cons b' bs ih =>
      have hcomma : ',' ∉ printByte b ++ [' '] := by simp [(cleanValue_printByte b).2.1]
      simpa [printBytes, printMoreBytes] using (ih b').append hcomma

/-- Every operand of an `ENCODE` or `BUILD` text is clean when the last one is. -/
theorem cleanOperand_of_mem_encoderOperands (type : PacketType) (shf : Bool) (apid : Nat) (sf : Option SeqFlags)
    (sc : Nat) {last : Text × Text} (hlast : CleanOperand last) :
    ∀ o ∈ encoderOperands type shf apid sf sc last, CleanOperand o := by
  have htype := cleanOperand_of_key_value "type" (cleanValue_printType type)
  have hshf := cleanOperand_of_key_value "shf" (cleanValue_printFlag shf)
  have hapid := cleanOperand_of_key_value "apid" (cleanValue_printNumber apid)
  have hsc := cleanOperand_of_key_value "sc" (cleanValue_printNumber sc)
  cases sf with
  | none => simpa [encoderOperands] using ⟨htype, hshf, hapid, hsc, hlast⟩
  | some flags =>
    have hsf := cleanOperand_of_key_value "sf" (cleanValue_printSeqFlags flags)
    simpa [encoderOperands] using ⟨htype, hshf, hapid, hsf, hsc, hlast⟩

/-! ### The text of a request reads back (R63, R65) -/

theorem parseType_printType (type : PacketType) : parseType (printType type) = .ok type := by
  cases type <;> rfl

theorem parseFlag_printFlag (shf : Bool) : parseFlag (printFlag shf) = .ok shf := by
  cases shf <;> rfl

theorem parseSeqFlags_printSeqFlags (sf : SeqFlags) : parseSeqFlags (printSeqFlags sf) = .ok sf := by
  cases sf <;> rfl

/-- The shared operands of `ENCODE` and `BUILD` read back; `sf=` left out reads as unsegmented (R65). -/
theorem parseEncoderText_encoderOperands (type : PacketType) (shf : Bool) (apid : Nat) (sf : Option SeqFlags) (sc : Nat)
    (key : String) (value : Text) :
    parseEncoderText key (encoderOperands type shf apid sf sc (key.toList, value)) =
      .ok { type := type, shf := shf, apid := apid, sf := sf.getD .unsegmented, sc := sc, last := value } := by
  cases sf with
  | some flags =>
    have hkeys : (encoderOperands type shf apid (some flags) sc (key.toList, value)).map Prod.fst = encoderKeys key :=
      rfl
    rw [parseEncoderText, if_pos hkeys]
    simp only [encoderOperands, List.map, parseType_printType, parseFlag_printFlag, parseNumber_printNumber,
      parseSeqFlags_printSeqFlags]
    rfl
  | none =>
    have hkeys : (encoderOperands type shf apid none sc (key.toList, value)).map Prod.fst = encoderKeysNoSf key := rfl
    have hfewer : encoderKeysNoSf key ≠ encoderKeys key := by simp [encoderKeysNoSf, encoderKeys]
    rw [parseEncoderText, if_neg (hkeys ▸ hfewer), if_pos hkeys]
    simp only [encoderOperands, List.map, parseType_printType, parseFlag_printFlag, parseNumber_printNumber]
    rfl

theorem printOperands_eq_space_cons {operands : List (Text × Text)} (hne : operands ≠ []) :
    ∃ rest, printOperands operands = ' ' :: rest := by
  match operands, hne with
  | [o], _ => exact ⟨_, rfl⟩
  | o :: o' :: more, _ => exact ⟨_, rfl⟩

/-- A list of clean operands ends as its last value does, so not in a space. -/
theorem getLast?_printOperands_ne_space {operands : List (Text × Text)} (hne : operands ≠ [])
    (hclean : ∀ o ∈ operands, CleanOperand o) : (printOperands operands).getLast? ≠ some ' ' := by
  induction operands with
  | nil => exact absurd rfl hne
  | cons o more ih =>
    have ho := hclean o List.mem_cons_self
    cases more with
    | nil =>
      rw [printOperands, printOperand, List.getLast?_cons_of_ne_nil (by simp),
        List.getLast?_append_of_ne_nil _ (by simp), List.getLast?_cons_of_ne_nil ho.value_ne]
      exact ho.value_last
    | cons o' more =>
      obtain ⟨rest, hrest⟩ := printOperands_eq_space_cons (List.cons_ne_nil o' more)
      rw [printOperands, List.getLast?_append_of_ne_nil _ (by simp), List.getLast?_cons_of_ne_nil (by simp [hrest])]
      · exact ih (List.cons_ne_nil _ _) fun x hx => hclean x (List.mem_cons_of_mem _ hx)
      · exact fun h => by cases h

/-- The request of an operation and its operand texts, once the text is taken apart. `parseRequest_mnemonic_append` ties
it to `parseRequest`. -/
def parseOperation (operands : List (Text × Text)) : Op → Except TextError Instr
  | .encode => do
    let t ← parseEncoderText "plen" operands
    let plen ← parseNumber t.last
    return .encode t.type t.shf t.apid t.sf t.sc plen
  | .decode => do
    let buf ← parseBufText operands
    return .decode buf
  | .build => do
    let t ← parseEncoderText "payload" operands
    let payload ← parseBytes t.last
    return .build t.type t.shf t.apid t.sf t.sc payload
  | .split => do
    let buf ← parseBufText operands
    return .split buf

/-- A name and clean operands are taken apart at the first space. -/
theorem parseRequest_mnemonic_append (op : Op) {operands : List (Text × Text)} (hne : operands ≠ [])
    (hclean : ∀ o ∈ operands, CleanOperand o) :
    parseRequest (op.mnemonic.toList ++ printOperands operands) = parseOperation operands op := by
  obtain ⟨rest, hrest⟩ := printOperands_eq_space_cons hne
  have hname : ∀ c ∈ op.mnemonic.toList, c ≠ ' ' := by cases op <;> simp [Op.mnemonic]
  have htrim : Trimmed (op.mnemonic.toList ++ printOperands operands) := by
    refine ⟨by cases op <;> simp [Op.mnemonic], ?_⟩
    rw [List.getLast?_append_of_ne_nil _ (by simp [hrest])]
    exact getLast?_printOperands_ne_space hne hclean
  obtain ⟨htake, hdrop⟩ := span_before hname rest
  rw [← hrest] at htake hdrop
  rw [parseRequest, trimSpaces_of_trimmed htrim, htake, hdrop, parseOperands_printOperands operands hne hclean]
  cases op <;> rfl

/-- An `ENCODE` text reads back, with or without `sf=`. -/
theorem parseRequest_printEncode (type : PacketType) (shf : Bool) (apid : Nat) (sf : Option SeqFlags) (sc plen : Nat) :
    parseRequest (printEncode type shf apid sf sc plen) =
      .ok (.encode type shf apid (sf.getD .unsegmented) sc plen) := by
  have hlast := cleanOperand_of_key_value "plen" (cleanValue_printNumber plen)
  rw [printEncode, parseRequest_mnemonic_append .encode (by cases sf <;> simp [encoderOperands])
    (cleanOperand_of_mem_encoderOperands type shf apid sf sc hlast), parseOperation, parseEncoderText_encoderOperands]
  simp only [bind, Except.bind, parseNumber_printNumber]
  rfl

/-- A `BUILD` text reads back, with or without `sf=`. -/
theorem parseRequest_printBuild (type : PacketType) (shf : Bool) (apid : Nat) (sf : Option SeqFlags) (sc : Nat)
    (payload : ByteSeq) :
    parseRequest (printBuild type shf apid sf sc payload) =
      .ok (.build type shf apid (sf.getD .unsegmented) sc payload) := by
  have hlast := cleanOperand_of_key_value "payload" (cleanValue_printBytes payload)
  rw [printBuild, parseRequest_mnemonic_append .build (by cases sf <;> simp [encoderOperands])
    (cleanOperand_of_mem_encoderOperands type shf apid sf sc hlast), parseOperation, parseEncoderText_encoderOperands]
  simp only [bind, Except.bind, parseBytes_printBytes]
  rfl

/-- The one operand of a `DECODE` or `SPLIT` text is clean. -/
theorem cleanOperand_buf (buf : ByteSeq) : ∀ o ∈ [("buf".toList, printBytes buf)], CleanOperand o :=
  List.forall_mem_singleton.mpr (cleanOperand_of_key_value "buf" (cleanValue_printBytes buf))

/-- The one operand of a `DECODE` or `SPLIT` text reads back. -/
theorem parseBufText_printBytes (buf : ByteSeq) : parseBufText [("buf".toList, printBytes buf)] = .ok buf := by
  rw [parseBufText, if_pos rfl, parseBytes_printBytes]

/-- Settles O38: each operation's text is its name and its operands, and each operand reads back. -/
theorem requestTextReadsBack : Obligations.RequestTextReadsBack := by
  intro i
  cases i with
  | encode type shf apid sf sc plen => exact parseRequest_printEncode type shf apid (some sf) sc plen
  | build type shf apid sf sc payload => exact parseRequest_printBuild type shf apid (some sf) sc payload
  | decode buf =>
    rw [printRequest, parseRequest_mnemonic_append .decode (List.cons_ne_nil _ _) (cleanOperand_buf buf),
      parseOperation, parseBufText_printBytes]
    rfl
  | split buf =>
    rw [printRequest, parseRequest_mnemonic_append .split (List.cons_ne_nil _ _) (cleanOperand_buf buf),
      parseOperation, parseBufText_printBytes]
    rfl

/-- Settles O39: `sf=` is left out of the texts of O38. -/
theorem omittedSequenceFlagsAreUnsegmented : Obligations.OmittedSequenceFlagsAreUnsegmented :=
  ⟨fun type shf apid sc plen => parseRequest_printEncode type shf apid none sc plen,
    fun type shf apid sc payload => parseRequest_printBuild type shf apid none sc payload⟩

/-! ### Texts the spec writes out (R63, R64) -/

/-- Settles O40: each text read and each response written as the spec has it. -/
theorem exampleTextsAreTheSpecs : Obligations.ExampleTextsAreTheSpecs :=
  ⟨rfl, rfl, rfl, rfl, rfl, rfl⟩

/-- Settles O43: each name and digit read by itself, and the two responses written. -/
theorem textNamesStandForTheirValues : Obligations.TextNamesStandForTheirValues :=
  ⟨⟨rfl, rfl, rfl, rfl⟩, ⟨rfl, rfl⟩, ⟨rfl, rfl, rfl, rfl, rfl, rfl, rfl, rfl⟩, rfl, rfl⟩

end Sys2Proof.Machine

/-! PROOFS. The encoder (40_encoder.md): the six bytes `ENCODE` answers as numbers of its operands (R67, R68), the
failed checks (R69), no operand lost in the bytes (R55, R72), and `BUILD` as `ENCODE` with the payload after it (R70). -/

namespace Sys2Proof.Machine

/-! ### The header words of operands in range (R20, R55, R68) -/

section EncoderHeader
variable (type : PacketType) (shf : Bool) {apid : Nat} (sf : SeqFlags) {sc plen : Nat}

/-- An APID in range is held by its 11 bits. -/
theorem encoderHeader_apid_toNat (sc plen : Nat) (hapid : apid ≤ 2047) :
    (encoderHeader type shf apid sf sc plen).apid.toNat = apid := by
  rw [encoderHeader, BitVec.toNat_ofNat]
  omega

/-- A Packet Sequence Count in range is held by its 14 bits. -/
theorem encoderHeader_sc_toNat (apid plen : Nat) (hsc : sc ≤ 16383) :
    (encoderHeader type shf apid sf sc plen).sc.toNat = sc := by
  rw [encoderHeader, BitVec.toNat_ofNat]
  omega

theorem headerWord0_encoderHeader_toNat (sc plen : Nat) (hapid : apid ≤ 2047) :
    (headerWord0 (encoderHeader type shf apid sf sc plen)).toNat =
      type.bit.toNat * 4096 + (flagBit shf).toNat * 2048 + apid := by
  rw [headerWord0_toNat, encoderHeader_apid_toNat type shf sf sc plen hapid]
  simp [encoderHeader]

theorem headerWord1_encoderHeader_toNat (apid plen : Nat) (hsc : sc ≤ 16383) :
    (headerWord1 (encoderHeader type shf apid sf sc plen)).toNat = sf.bits.toNat * 16384 + sc := by
  rw [headerWord1_toNat, encoderHeader_sc_toNat type shf sf apid plen hsc]
  rfl

/-- The third word is the length code, the exact `plen - 1` of a length in range: one less than the length the header
declares. -/
theorem headerWord2_encoderHeader_toNat (apid sc : Nat) (hmin : 1 ≤ plen) (hmax : plen ≤ 65536) :
    (headerWord2 (encoderHeader type shf apid sf sc plen)).toNat = plen - 1 :=
  Nat.eq_sub_of_add_eq (declaredPayloadLength_encoderHeader type shf apid sf sc hmin hmax)

end EncoderHeader

/-! ### The bytes and the mask of an `ENCODE` (R67, R69) -/

theorem highByte_toNat (w : Word16) : (highByte w).toNat = w.toNat / 256 := by
  have hsum := highByte_toNat_mul_add_lowByte_toNat w
  have hlow : (lowByte w).toNat < 256 := (lowByte w).isLt
  omega

theorem lowByte_toNat (w : Word16) : (lowByte w).toNat = w.toNat % 256 := by
  have hsum := highByte_toNat_mul_add_lowByte_toNat w
  have hlow : (lowByte w).toNat < 256 := (lowByte w).isLt
  omega

/-- Each bit of the mask says whether its own check failed, and nothing about the others. -/
theorem rangeCause_getLsbD_iff (apid sc plen : Nat) :
    ((rangeCause apid sc plen).getLsbD 0 = true ↔ 2047 < apid) ∧
      ((rangeCause apid sc plen).getLsbD 1 = true ↔ 16383 < sc) ∧
      ((rangeCause apid sc plen).getLsbD 2 = true ↔ plen = 0) ∧
      ((rangeCause apid sc plen).getLsbD 3 = true ↔ 65536 < plen) := by
  obtain ⟨hapid, hsc, hzero, hover⟩ := rangeCause_bits apid sc plen
  rw [hapid, hsc, hzero, hover]
  exact ⟨causeApid_iff apid, causeSc_iff sc, causeLenZero_iff plen, causeLenOver_iff plen⟩

/-- In range `ENCODE` answers the two bytes of each header word. -/
theorem exec_encode_of_in_range (type : PacketType) (shf : Bool) {apid : Nat} (sf : SeqFlags) {sc plen : Nat}
    (s : State) (hrange : apid ≤ 2047 ∧ sc ≤ 16383 ∧ 1 ≤ plen ∧ plen ≤ 65536) :
    let h := encoderHeader type shf apid sf sc plen
    exec (.encode type shf apid sf sc plen) s =
      .next (s.answered (.encode type shf apid sf sc plen)
        (.okHdr [highByte (headerWord0 h), lowByte (headerWord0 h), highByte (headerWord1 h), lowByte (headerWord1 h),
          highByte (headerWord2 h), lowByte (headerWord2 h)])) :=
  exec_encode_eq_okHdr_iff.mpr ⟨hrange, packHeader_eq _⟩

/-- Out of range `ENCODE` answers the error with the mask of the failed checks. -/
theorem exec_encode_of_out_of_range (type : PacketType) (shf : Bool) {apid : Nat} (sf : SeqFlags) {sc plen : Nat}
    (s : State) (hout : ¬(apid ≤ 2047 ∧ sc ≤ 16383 ∧ 1 ≤ plen ∧ plen ≤ 65536)) :
    exec (.encode type shf apid sf sc plen) s =
      .next (s.answered (.encode type shf apid sf sc plen) (.errRange (rangeCause apid sc plen))) :=
  exec_encode_eq_errRange_iff.mpr ⟨mt (rangeCause_eq_zero_iff ..).mp hout, rfl⟩

/-- Settles O8: in range each byte is one half of a header word, the word being the sum of its fields in their units;
out of range the mask's bits are the failed checks. -/
theorem encodeAnswersHeaderOrFailedChecks : Obligations.EncodeAnswersHeaderOrFailedChecks := by
  intro type shf apid sf sc plen s
  constructor
  · intro hrange
    have ⟨hapid, hsc, hmin, hmax⟩ := hrange
    refine ⟨_, _, _, _, _, _, exec_encode_of_in_range type shf sf s hrange, ?_⟩
    simp only [highByte_toNat, lowByte_toNat, headerWord0_encoderHeader_toNat type shf sf sc plen hapid,
      headerWord1_encoderHeader_toNat type shf sf apid plen hsc,
      headerWord2_encoderHeader_toNat type shf sf apid sc hmin hmax, and_true]
    omega
  · intro hout
    exact ⟨_, exec_encode_of_out_of_range type shf sf s hout, rangeCause_getLsbD_iff apid sc plen⟩

/-! ### The length code (R68) -/

/-- Settles O9: bytes 4 and 5 of an answer are the third header word, which is the length code; a length without a code
is out of range whatever the other operands are. -/
theorem encodedLengthIsExact : Obligations.EncodedLengthIsExact := by
  intro type shf apid sf sc plen s
  constructor
  · intro bytes hexec
    obtain ⟨⟨-, -, hmin, hmax⟩, rfl⟩ := exec_encode_eq_okHdr_iff.mp hexec
    exact ⟨hmin, hmax, _, _, rfl, rfl,
      (highByte_toNat_mul_add_lowByte_toNat _).trans (headerWord2_encoderHeader_toNat type shf sf apid sc hmin hmax)⟩
  · intro hlen
    exact ⟨_, exec_encode_of_out_of_range type shf sf s (by omega)⟩

/-! ### No operand is truncated (R55, R72) -/

/-- Packing loses no header: decoding the bytes gives it back. -/
theorem packHeader_injective : Function.Injective packHeader := fun h h' heq =>
  Except.ok.inj <| calc .ok h
    _ = decodeHeader (packHeader h ++ []) := (decodeHeader_packHeader_append h []).symm
    _ = decodeHeader (packHeader h' ++ []) := by rw [heq]
    _ = .ok h' := decodeHeader_packHeader_append h' []

/-- Settles O10: the bytes determine the header, and each field of the header determines its operand in range. -/
theorem encodeLosesNoOperandBit : Obligations.EncodeLosesNoOperandBit := by
  intro type type' shf shf' apid apid' sf sf' sc sc' plen plen' bytes s s' hexec hexec'
  obtain ⟨⟨hapid, hsc, hmin, hmax⟩, hpack⟩ := exec_encode_eq_okHdr_iff.mp hexec
  obtain ⟨⟨hapid', hsc', hmin', hmax'⟩, hpack'⟩ := exec_encode_eq_okHdr_iff.mp hexec'
  have hheader : encoderHeader type shf apid sf sc plen = encoderHeader type' shf' apid' sf' sc' plen' :=
    packHeader_injective (hpack.trans hpack'.symm)
  refine ⟨congrArg Header.type hheader, congrArg Header.shf hheader, ?_, congrArg Header.sf hheader, ?_, ?_⟩
  · rw [← encoderHeader_apid_toNat type shf sf sc plen hapid, hheader, encoderHeader_apid_toNat _ _ _ _ _ hapid']
  · rw [← encoderHeader_sc_toNat type shf sf apid plen hsc, hheader, encoderHeader_sc_toNat _ _ _ _ _ hsc']
  · rw [← declaredPayloadLength_encoderHeader type shf apid sf sc hmin hmax, hheader,
      declaredPayloadLength_encoderHeader _ _ _ _ _ hmin' hmax']

/-! ### `BUILD` in terms of `ENCODE` (R70) -/

section BuildByEncode
variable {type : PacketType} {shf : Bool} {apid : Nat} {sf : SeqFlags} {sc : Nat} {payload : ByteSeq} {s : State}

/-- `BUILD` answers the packet that begins with a header exactly where `ENCODE` answers that header. -/
theorem exec_build_eq_okPkt_append_iff {hdr : ByteSeq} :
    exec (.build type shf apid sf sc payload) s =
        .next (s.answered (.build type shf apid sf sc payload) (.okPkt (hdr ++ payload))) ↔
      exec (.encode type shf apid sf sc payload.length) s =
        .next (s.answered (.encode type shf apid sf sc payload.length) (.okHdr hdr)) := by
  rw [exec_build_eq_okPkt_iff, exec_encode_eq_okHdr_iff, List.append_left_inj]

/-- `BUILD` answers an error exactly where `ENCODE` answers it. -/
theorem exec_build_eq_errRange_iff {cause : BitVec 4} :
    exec (.build type shf apid sf sc payload) s =
        .next (s.answered (.build type shf apid sf sc payload) (.errRange cause)) ↔
      exec (.encode type shf apid sf sc payload.length) s =
        .next (s.answered (.encode type shf apid sf sc payload.length) (.errRange cause)) := by
  rw [exec_eq_next_answered_iff, exec_eq_next_answered_iff, responseTo, responseTo, buildPacket_eq]
  cases encodeHeader type shf apid sf sc payload.length with
  | ok hdr => simp [Except.map]
  | error e => simp [Except.map, Instr.admitted]

end BuildByEncode

/-- Settles O11: `BUILD` follows the answer of `ENCODE`, and its packet reads as the six header bytes up to offset 6 and
as the payload from there on. -/
theorem buildIsEncodeThenPayload : Obligations.BuildIsEncodeThenPayload := by
  intro type shf apid sf sc payload s
  constructor
  · intro hrange
    have hencode := exec_encode_of_in_range type shf sf s hrange
    exact ⟨_, hencode, exec_build_eq_okPkt_append_iff.mpr hencode, List.length_append,
      fun _ hk => memRead_append_left _ _ hk, memRead_append_right _ payload⟩
  · intro hout
    have hencode := exec_encode_of_out_of_range type shf sf s hout
    exact ⟨_, hencode, exec_build_eq_errRange_iff.mpr hencode⟩

end Sys2Proof.Machine

/-! PROOFS. The decoder (41_decoder.md): the fields `DECODE` reads as numbers of the received bytes (R73), `SPLIT` as the
inverse of putting a packed header before a payload (R76), the round trips of both families (R78, R79), and responses as
functions of their requests (R80). -/

namespace Sys2Proof.Machine

/-! ### What a `DECODE` and a `SPLIT` answer (R73, R76) -/

/-- Six bytes or more are a packed header and what follows it. -/
theorem exists_packHeader_append {buf : ByteSeq} (hlen : 6 ≤ buf.length) :
    ∃ h rest, packHeader h ++ rest = buf := by
  obtain ⟨b0, b1, b2, b3, b4, b5, rest, rfl⟩ := exists_six_bytes hlen
  exact ⟨unpackHeader b0 b1 b2 b3 b4 b5, rest, by rw [packHeader_unpackHeader]; rfl⟩

/-- `SPLIT` takes a header and a payload out of exactly the bytes that are that header packed and that payload. -/
theorem splitPacket_eq_ok_iff {buf payload : ByteSeq} {h : Header} :
    splitPacket buf = .ok (h, payload) ↔ packHeader h ++ payload = buf := by
  rw [splitPacket_eq]
  constructor
  · intro hsplit
    by_cases hlen : buf.length < 6
    · rw [decodeHeader_short hlen] at hsplit
      cases hsplit
    · obtain ⟨h', rest, rfl⟩ := exists_packHeader_append (Nat.le_of_not_lt hlen)
      rw [decodeHeader_packHeader_append] at hsplit
      cases hsplit
      rfl
  · rintro rfl
    rw [decodeHeader_packHeader_append]
    rfl

section DecoderAnswers
variable {buf : ByteSeq} {h : Header} {s : State}

/-- `DECODE` answers fields exactly where MAX_RX admits the bytes and six of them give those fields. -/
theorem exec_decode_eq_okFields_iff :
    exec (.decode buf) s = .next (s.answered (.decode buf) (.okFields h)) ↔
      Config.rxAdmits s.maxRx buf.length = true ∧ decodeHeader buf = .ok h := by
  rw [exec_eq_next_answered_iff, responseTo]
  refine and_congr_right fun _ => ?_
  obtain ⟨-, hdec⟩ | ⟨_, _, _, _, _, _, _, -, hdec⟩ := decodeHeader_cases buf
  · simp [hdec, CodecError.response]
  · simp [hdec]

/-- `SPLIT` answers a header and a payload exactly where MAX_RX admits the bytes and they are that header packed and that
payload. -/
theorem exec_split_eq_okSplit_iff {payload : ByteSeq} :
    exec (.split buf) s = .next (s.answered (.split buf) (.okSplit h payload)) ↔
      Config.rxAdmits s.maxRx buf.length = true ∧ packHeader h ++ payload = buf := by
  rw [exec_eq_next_answered_iff, responseTo, ← splitPacket_eq_ok_iff]
  refine and_congr_right fun _ => ?_
  rw [splitPacket_eq]
  obtain ⟨-, hdec⟩ | ⟨_, _, _, _, _, _, _, -, hdec⟩ := decodeHeader_cases buf
  · simp [hdec, Except.map, CodecError.response]
  · simp [hdec, Except.map]

/-- `DECODE` of fewer than six bytes answers the truncation error. -/
theorem exec_decode_of_short (hadm : Config.rxAdmits s.maxRx buf.length = true) (hlen : buf.length < 6) :
    exec (.decode buf) s = .next (s.answered (.decode buf) .errTruncHdr) := by
  rw [exec_eq_next_answered_iff, responseTo, decodeHeader_short hlen]
  exact ⟨hadm, rfl⟩

/-- `SPLIT` of fewer than six bytes answers the truncation error. -/
theorem exec_split_of_short (hadm : Config.rxAdmits s.maxRx buf.length = true) (hlen : buf.length < 6) :
    exec (.split buf) s = .next (s.answered (.split buf) .errTruncHdr) := by
  rw [exec_eq_next_answered_iff, responseTo, splitPacket_eq, decodeHeader_short hlen]
  exact ⟨hadm, rfl⟩

end DecoderAnswers

/-! ### The fields as numbers (R48, R73) -/

/-- A cut of a bit vector as a number: what is below it is divided away, what is above it is left out. -/
theorem toNat_extractLsb'_eq_div_mod {n : Nat} (x : BitVec n) (start len : Nat) :
    (x.extractLsb' start len).toNat = x.toNat / 2 ^ start % 2 ^ len := by
  rw [BitVec.extractLsb'_toNat, Nat.shiftRight_eq_div_pow]

/-- Each field of six bytes, as a number of the bytes it stands in. -/
theorem unpackHeader_toNat (b0 b1 b2 b3 b4 b5 : Byte) :
    let h := unpackHeader b0 b1 b2 b3 b4 b5
    h.pvn.toNat = b0.toNat / 32 ∧
      h.type.bit.toNat = b0.toNat / 16 % 2 ∧
      (flagBit h.shf).toNat = b0.toNat / 8 % 2 ∧
      h.apid.toNat = b0.toNat % 8 * 256 + b1.toNat ∧
      h.sf.bits.toNat = b2.toNat / 64 ∧
      h.sc.toNat = b2.toNat % 64 * 256 + b3.toNat ∧
      h.dl.toNat = b4.toNat * 256 + b5.toNat := by
  have hb0 : b0.toNat < 256 := b0.isLt
  have hb2 : b2.toNat < 256 := b2.isLt
  simp only [unpackHeader, PacketType.bit_ofBit, flagBit_flagOfBit, SeqFlags.bits_ofBits, toNat_append_eq_add,
    toNat_extractLsb'_eq_div_mod]
  omega

/-- Settles O17: below six bytes the error, else the fields of the first six bytes as numbers. -/
theorem decodeAnswersFieldsOrTruncation : Obligations.DecodeAnswersFieldsOrTruncation := by
  intro s
  constructor
  · exact fun buf hadm hlen => exec_decode_of_short hadm hlen
  · intro b0 b1 b2 b3 b4 b5 rest hadm
    exact ⟨_, exec_decode_eq_okFields_iff.mpr ⟨hadm, decodeHeader_six b0 b1 b2 b3 b4 b5 rest⟩,
      unpackHeader_toNat b0 b1 b2 b3 b4 b5⟩

/-- Settles O18: six bytes or more are a packed header, which both operations take back, and the bytes after it, which
`SPLIT` delivers. -/
theorem splitIsDecodeAndTheRest : Obligations.SplitIsDecodeAndTheRest := by
  intro buf s hadm
  refine ⟨exec_split_of_short hadm, fun hlen => ?_⟩
  obtain ⟨h, payload, rfl⟩ := exists_packHeader_append hlen
  refine ⟨h, payload, exec_decode_eq_okFields_iff.mpr ⟨hadm, decodeHeader_packHeader_append h payload⟩,
    exec_split_eq_okSplit_iff.mpr ⟨hadm, rfl⟩, ?_, fun k => (memRead_append_right _ payload k).symm⟩
  rw [List.length_append, packHeader_length, Nat.add_sub_cancel_left]

/-! ### What the encoder packs is read back (R71, R78) -/

/-- The header of a request in range carries the request's operands, in version 0. -/
theorem encoderHeader_carries_operands (type : PacketType) (shf : Bool) {apid : Nat} (sf : SeqFlags) {sc plen : Nat}
    (hrange : apid ≤ 2047 ∧ sc ≤ 16383 ∧ 1 ≤ plen ∧ plen ≤ 65536) :
    let h := encoderHeader type shf apid sf sc plen
    h.pvn = 0#3 ∧ h.type = type ∧ h.shf = shf ∧ h.apid.toNat = apid ∧ h.sf = sf ∧ h.sc.toNat = sc ∧
      h.dl.toNat = plen - 1 := by
  obtain ⟨hapid, hsc, hmin, hmax⟩ := hrange
  exact ⟨rfl, rfl, rfl, encoderHeader_apid_toNat type shf sf sc plen hapid, rfl,
    encoderHeader_sc_toNat type shf sf apid plen hsc, headerWord2_encoderHeader_toNat type shf sf apid sc hmin hmax⟩

/-- Settles O21: the packet is the packed header of the operands before the payload, which is what `SPLIT` takes
apart. -/
theorem splitInvertsBuild : Obligations.SplitInvertsBuild := by
  intro type shf apid sf sc payload s hapid hsc hmin hmax hadm
  have hrange : apid ≤ 2047 ∧ sc ≤ 16383 ∧ 1 ≤ payload.length ∧ payload.length ≤ 65536 := ⟨hapid, hsc, hmin, hmax⟩
  refine ⟨_, _, exec_build_eq_okPkt_iff.mpr ⟨hrange, rfl⟩, exec_split_eq_okSplit_iff.mpr ⟨?_, rfl⟩,
    encoderHeader_carries_operands type shf sf hrange⟩
  rwa [List.length_append, packHeader_length]

/-- Settles O22: the bytes of a success are the packed header of the operands. -/
theorem decodeInvertsEncode : Obligations.DecodeInvertsEncode := by
  intro type shf apid sf sc plen bytes rest s s' hexec hadm
  obtain ⟨hrange, rfl⟩ := exec_encode_eq_okHdr_iff.mp hexec
  exact ⟨_, exec_decode_eq_okFields_iff.mpr ⟨hadm, decodeHeader_packHeader_append _ rest⟩,
    encoderHeader_carries_operands type shf sf hrange⟩

/-! ### What was split is built again (R79) -/

/-- The encoder's header for the fields of a version 0 header is that header, but for the length it declares. -/
theorem encoderHeader_of_fields {h : Header} (hversion : h.pvn = 0#3) {plen : Nat} (hmin : 1 ≤ plen)
    (hmax : plen ≤ 65536) :
    ∃ dl : BitVec 16, dl.toNat = plen - 1 ∧
      encoderHeader h.type h.shf h.apid.toNat h.sf h.sc.toNat plen = { h with dl := dl } := by
  refine ⟨_, headerWord2_encoderHeader_toNat h.type h.shf h.sf h.apid.toNat h.sc.toNat hmin hmax, ?_⟩
  simp only [encoderHeader, headerWord2, BitVec.ofNat_toNat, BitVec.setWidth_eq, ← hversion]

/-- The declared length stands in bytes 4 and 5 alone. -/
theorem memRead_packHeader_set_dl (h : Header) (dl : BitVec 16) (rest : ByteSeq) :
    ∀ {k : Nat}, k ≠ 4 → k ≠ 5 → memRead (packHeader { h with dl := dl } ++ rest) k = memRead (packHeader h ++ rest) k
  | 0, _, _ | 1, _, _ | 2, _, _ | 3, _, _ => rfl
  | 4, hne, _ => absurd rfl hne
  | 5, _, hne => absurd rfl hne
  | _ + 6, _, _ => rfl

/-- Two packets of one payload are equal exactly when their headers are, which a header's declared length decides where
the other fields agree. -/
theorem packHeader_set_dl_append_eq_iff (h : Header) (dl : BitVec 16) (payload : ByteSeq) :
    packHeader { h with dl := dl } ++ payload = packHeader h ++ payload ↔ dl = h.dl := by
  rw [List.append_left_inj, packHeader_injective.eq_iff]
  exact ⟨congrArg Header.dl, fun hdl => by rw [hdl]⟩

/-- Settles O23: the received bytes and the rebuilt ones are packed headers, which differ at most in the declared length,
before one payload. -/
theorem buildInvertsSplitUpToLength : Obligations.BuildInvertsSplitUpToLength := by
  intro buf payload h s s' hlen hsplit hversion hmax
  obtain ⟨-, rfl⟩ := exec_split_eq_okSplit_iff.mp hsplit
  rw [List.length_append, packHeader_length] at hlen
  have hapid : h.apid.toNat < 2 ^ 11 := h.apid.isLt
  have hsc : h.sc.toNat < 2 ^ 14 := h.sc.isLt
  have hmin : 1 ≤ payload.length := by omega
  obtain ⟨dl, hdl, hheader⟩ := encoderHeader_of_fields hversion hmin hmax
  refine ⟨packHeader { h with dl := dl } ++ payload, highByte dl, lowByte dl,
    exec_build_eq_okPkt_iff.mpr ⟨⟨by omega, by omega, hmin, hmax⟩, by rw [hheader]⟩, ?_,
    fun _ h4 h5 => memRead_packHeader_set_dl h dl payload h4 h5, rfl, rfl,
    (highByte_toNat_mul_add_lowByte_toNat dl).trans hdl, ?_⟩
  · rw [List.length_append, List.length_append, packHeader_length, packHeader_length]
  · rw [packHeader_set_dl_append_eq_iff, ← BitVec.toNat_inj, hdl]
    omega

/-! ### A response depends on its request alone (R80, R105) -/

/-- Settles O29: both states record the one response of the request. -/
theorem responseDependsOnRequestAlone : Obligations.ResponseDependsOnRequestAlone := by
  intro i s s' t t' hexec hexec'
  obtain ⟨-, ht⟩ := exec_eq_next_iff.mp hexec
  obtain ⟨-, ht'⟩ := exec_eq_next_iff.mp hexec'
  exact ⟨responseTo i, ht, ht'⟩

end Sys2Proof.Machine

/-! PROOFS. The exceptions (60_exceptions.md): the truncated payload, which a caller sees and the codec does not (R85),
which requests are answered and which are refused (R99), the one kind of error each operation can meet (R84, R88), and
what a caller reads of an error response (R86). -/

namespace Sys2Proof.Machine

/-! ### A truncated payload (R85) -/

/-- The caller's check as a comparison of numbers (R56, R85). -/
theorem payloadTruncated_iff (h : Header) (payload : ByteSeq) :
    payloadTruncated h payload = true ↔ payload.length < h.dl.toNat + 1 := by
  rw [payloadTruncated, decide_eq_true_iff, declaredPayloadLength]

/-- The two length bytes of a packed header, read whatever follows it, are the length code. -/
theorem length_bytes_of_packHeader_append {h : Header} {rest : ByteSeq} {b4 b5 : Byte}
    (h4 : memRead (packHeader h ++ rest) 4 = some b4) (h5 : memRead (packHeader h ++ rest) 5 = some b5) :
    b4.toNat * 256 + b5.toNat = h.dl.toNat := by
  have hhigh : highByte (headerWord2 h) = b4 := Option.some.inj h4
  have hlow : lowByte (headerWord2 h) = b5 := Option.some.inj h5
  rw [← hhigh, ← hlow]
  exact highByte_toNat_mul_add_lowByte_toNat (headerWord2 h)

/-- Settles O19: the received bytes are a packed header and a payload; `SPLIT` answers these two whatever length the
header declares, and the length bytes are that header's own. -/
theorem truncatedPayloadIsTheCallersToSee : Obligations.TruncatedPayloadIsTheCallersToSee := by
  intro buf b4 b5 s hadm h4 h5
  have hlen : 5 < buf.length := (memRead_isSome_iff buf 5).mp (by rw [h5]; rfl)
  obtain ⟨h, payload, rfl⟩ := exists_packHeader_append hlen
  refine ⟨h, payload, exec_split_eq_okSplit_iff.mpr ⟨hadm, rfl⟩, ?_⟩
  rw [payloadTruncated_iff, length_bytes_of_packHeader_append h4 h5, List.length_append, packHeader_length,
    Nat.add_sub_cancel_left]

/-! ### Answered or refused (R17, R99, R108) -/

/-- A length above a finite MAX_RX is not admitted. -/
theorem rxAdmits_eq_false_of_lt {limit length : Nat} (hlong : limit < length) :
    Config.rxAdmits (some limit) length = false := by
  rw [Bool.eq_false_iff, ne_eq, rxAdmits_some_iff]
  exact Nat.not_le_of_lt hlong

/-- MAX_RX decides, by the length of the received sequence alone, whether a decoder request is answered: this is the
part that `DECODE` and `SPLIT` share. -/
theorem exec_of_received_length {i : Instr} {length : Nat} {s : State}
    (hreceived : i.admitted s.maxRx = Config.rxAdmits s.maxRx length) :
    (∀ n, s.maxRx = some n → n < length → exec i s = .refused .inputTooLong) ∧
      ((s.maxRx = none ∨ ∃ n, s.maxRx = some n ∧ length ≤ n) → ∃ r, exec i s = .next (s.answered i r)) := by
  constructor
  · intro n hmax hlong
    apply exec_refused_of_not_admitted
    rw [hreceived, hmax, rxAdmits_eq_false_of_lt hlong]
  · intro hbound
    exact ⟨_, exec_of_admitted (hreceived.trans ((rxAdmits_iff ..).mpr hbound))⟩

/-- Settles O28: an admitted request has its one response, any other is refused; only the decoder's requests carry a
received sequence that MAX_RX can be too short for. -/
theorem answeredExactlyWhenAdmitted : Obligations.AnsweredExactlyWhenAdmitted := by
  intro i s
  refine ⟨fun hadm => ⟨_, exec_of_admitted hadm⟩, exec_refused_of_not_admitted, ?_⟩
  cases i with
  | encode => exact ⟨_, exec_of_admitted rfl⟩
  | build => exact ⟨_, exec_of_admitted rfl⟩
  | decode buf => exact exec_of_received_length rfl
  | split buf => exact exec_of_received_length rfl

/-! ### One kind of error for each operation (R84, R88) -/

/-- A lawful response to an encoder request is a success or a range error with a failed check. -/
theorem encoderResponseLawful_status {inRange fromEncode : Bool} {length : Nat} {r : Response}
    (hlaw : encoderResponseLawful inRange length fromEncode r = true) :
    r.status = .success ∨ ∃ cause, r = .errRange cause ∧ cause ≠ 0#4 := by
  cases r with
  | okHdr | okPkt => exact .inl rfl
  | okFields | okSplit | errTruncHdr => cases hlaw
  | errRange cause =>
    obtain ⟨-, hlegal⟩ := Bool.and_eq_true_iff.mp hlaw
    obtain ⟨hne, -⟩ := Bool.and_eq_true_iff.mp hlegal
    exact .inr ⟨cause, rfl, bne_iff_ne.mp hne⟩

/-- A lawful response to a decoder request is a success from six bytes on, and a truncation error below. -/
theorem decoderResponseLawful_status {fromDecode : Bool} {length : Nat} {r : Response}
    (hlaw : decoderResponseLawful length fromDecode r = true) :
    (r.status = .success ∧ 6 ≤ length) ∨ (r = .errTruncHdr ∧ length < 6) := by
  cases r with
  | okHdr | okPkt | errRange => cases hlaw
  | okFields h =>
    obtain ⟨-, hlen⟩ := Bool.and_eq_true_iff.mp hlaw
    exact .inl ⟨rfl, of_decide_eq_true hlen⟩
  | okSplit h payload =>
    obtain ⟨hkind, -⟩ := Bool.and_eq_true_iff.mp hlaw
    obtain ⟨-, hlen⟩ := Bool.and_eq_true_iff.mp hkind
    exact .inl ⟨rfl, of_decide_eq_true hlen⟩
  | errTruncHdr => exact .inr ⟨rfl, of_decide_eq_true hlaw⟩

/-- Settles O30: the response recorded is the request's own, which is lawful, and a lawful response to an operation of
either family has one kind of error. -/
theorem eachOperationHasOneErrorKind : Obligations.EachOperationHasOneErrorKind := by
  intro i r s hexec
  obtain ⟨hadm, rfl⟩ := exec_eq_next_answered_iff.mp hexec
  have hlaw := responseTo_lawful hadm
  cases i with
  | encode => exact encoderResponseLawful_status hlaw
  | build => exact encoderResponseLawful_status hlaw
  | decode buf =>
    obtain ⟨-, hresponse⟩ := Bool.and_eq_true_iff.mp hlaw
    exact decoderResponseLawful_status hresponse
  | split buf =>
    obtain ⟨-, hresponse⟩ := Bool.and_eq_true_iff.mp hlaw
    exact decoderResponseLawful_status hresponse

/-! ### Reading the response (R86, R99) -/

/-- Settles O32: on the two error responses every result reader faults, and each kind of success has the reader of its
own result. -/
theorem errorResponsesHaveNoResult : Obligations.ErrorResponsesHaveNoResult := by
  intro r
  constructor
  · intro herror
    cases r with
    | okHdr | okPkt | okFields | okSplit => exact absurd rfl herror
    | errRange | errTruncHdr => exact ⟨rfl, rfl, rfl, rfl⟩
  · intro hsuccess
    cases r with
    | okHdr bytes => exact .inl ⟨bytes, rfl⟩
    | okPkt bytes => exact .inr (.inl ⟨bytes, rfl⟩)
    | okFields h => exact .inr (.inr ⟨h, rfl⟩)
    | okSplit h payload => exact .inr (.inr ⟨h, rfl⟩)
    | errRange | errTruncHdr => cases hsuccess

end Sys2Proof.Machine

/-! PROOFS. Reset (70_reset_and_hazards.md): what was presented and not yet answered is gone, and the next request
presented is the only one that waits. -/

namespace Sys2Proof.Machine

/-- A request presented where none waits is the one the next step carries out, or refuses as `exec` does. -/
theorem step_present_of_pending_nil {s : State} (hp : s.pending = []) (r : Request) :
    step (s.present r) = exec (decode r) s := by
  have hwaiting : (s.present r).pending = [] ++ r :: [] := by rw [State.present_pending, hp]
  have htaken : { s.present r with pending := [] ++ [] } = s :=
    congrArg (fun waiting => { s with pending := waiting }) hp.symm
  cases hadm : (decode r).admitted s.maxRx with
  | true =>
    have hfetch : fetch (s.present r) = some (r, { s.present r with pending := [] ++ [] }) :=
      fetch_admitted hwaiting (by simp) hadm
    rw [step_of_fetch hfetch, htaken]
  | false =>
    rw [exec_refused_of_not_admitted hadm]
    exact step_of_none_admitted (by simp) (by simpa [hp] using hadm)

/-- Settles O33: reset keeps MAX_RX, so a request answered before it is admitted after it, and with nothing else waiting
the next step records its one response. -/
theorem resetDropsWhatIsUnanswered : Obligations.ResetDropsWhatIsUnanswered := by
  refine fun s => ⟨State.assertReset_pending s, State.assertReset_transactions s, State.assertReset_maxRx s, ?_⟩
  intro r x hexec
  obtain ⟨hadm, hresponse⟩ := exec_eq_next_answered_iff.mp hexec
  rw [step_present_of_pending_nil (State.assertReset_pending s)]
  exact exec_eq_next_answered_iff.mpr ⟨hadm, hresponse⟩

end Sys2Proof.Machine
